-- ==== Sys2Proof/Word.lean ====
section
/-! DEFINITION. The values of the machine: 32-bit words, bytes and frames (00_scope.md R6, 30_encoding.md R45). -/

namespace Sys2Proof

/-- A word of `S`, `M` or `K`: an unsigned 32-bit value; `+` is addition modulo 2^32, `^^^` exclusive-or (R4, R6). -/
abbrev Word := BitVec 32

/-- One byte of a frame or of a word's lane. -/
abbrev Byte := BitVec 8

/-- A frame: a finite byte sequence, possibly empty, that carries one operand or the output of a command (R45, R32). -/
abbrev Frame := List Byte

/-- The state array `S`: 16 words (R11). -/
abbrev StateArray := Vector Word 16

/-- The matrix state `M`: 4 rows of 4 slots, col 0, row 1, dia 2 and the pad slot 3 (R12, R13). -/
abbrev MatrixState := Vector (Vector Word 4) 4

end Sys2Proof
end

