-- ==== Sys2Proof/Machine/Literals.lean ====
section
/-! DEFINITION. Every numeric literal of the source in one place, so that an audit changes one file
(00_scope.md R4, 92_eei_decisions.md D31, 93_implementation_defined.md U7; log 16). -/

namespace Sys2Proof.Machine.Lit

/-- `NONCE_LEN`, in bytes (R4). -/
abbrev nonceLen : Nat := 12
/-- `BLOCK`, in bytes (R4). -/
abbrev blockLen : Nat := 64
/-- `NS`, words of the state array (R4). -/
abbrev stateWords : Nat := 16
/-- `NK`, words of the constant table (R4). -/
abbrev tableWords : Nat := 24
/-- `ROUNDS` per outer iteration (R4). -/
abbrev rounds : Nat := 3
/-- `OUTER_BASE`, outer iterations of a pass for each unit of `MULT` (R4). -/
abbrev outerBase : Nat := 4
/-- The shift of the key length in the seed index (R60). -/
abbrev seedShift : Nat := 21
/-- The row and column factors of the deriver's index (R66). -/
abbrev deriveRow : Nat := 7
abbrev deriveCol : Nat := 11
/-- The mask and the shift of the column and row references (R75). -/
abbrev quarterMask : Nat := 3
abbrev quarterShift : Nat := 2

/-- `skip(q)` of the diagonal references (R75). -/
def diagSkip : Fin 4 → Nat
  | 0 => 0
  | 1 => 5
  | 2 => 10
  | 3 => 15

/-- The rotation counts of `MIX`, by statement number (R77). -/
abbrev rot3 : Nat := 5
abbrev rot4 : Nat := 11
abbrev rot7 : Nat := 12
abbrev rot8 : Nat := 15
abbrev rot11 : Nat := 14
abbrev rot12 : Nat := 25
abbrev rot15 : Nat := 7
abbrev rot16 : Nat := 30

end Sys2Proof.Machine.Lit
end

