-- ==== Sys2Proof/Config.lean ====
section
/-! DEFINITION. The configuration of an engine (00_scope.md R5, 10_state.md R17, R18): fixed for its life, written by no
operation. The free values, which the spec leaves without a value, are opaque constants here. -/

namespace Sys2Proof

/-- Which bits of a word are its byte `k` (R31). -/
inductive ByteOrder where
  | little
  | big
deriving DecidableEq, Repr

/-- `LENW`: the width in which the seed index is computed (R60). -/
inductive LenWidth where
  | w32
  | w64
  | unbounded
deriving DecidableEq, Repr

/-- `KSVIEW`: how the matrix state is read as 64 keystream bytes (R5, R96; 92_eei_decisions.md D7).
`padded` is the spec's resolution; `other` is any other total function, left uninterpreted (`Config.otherView`). -/
inductive KsView where
  | padded
  | other
deriving DecidableEq, Repr

/-- The configuration record of one engine, under the manual's names. -/
structure Config where
  /-- The constant table: 24 read-only words (R17). -/
  K : Vector Word 24
  /-- The outer-iteration multiplier (R18). -/
  MULT : Nat
  LENW : LenWidth
  BYTE_ORDER : ByteOrder
  KSVIEW : KsView
deriving DecidableEq, Repr

/-- What the spec asks of a configuration: `MULT` is an integer at least 1 (R18, D12). -/
abbrev Config.wf (cfg : Config) : Prop := 1 ≤ cfg.MULT

/-- A FREE VALUE: the 24 constants of the engine that `State.reset` describes. The spec gives none (R17, D11; log 2). -/
opaque Config.engineTable : Vector Word 24

/-- A FREE VALUE: the 64-byte view an engine with `KSVIEW = other` takes of its matrix state (D7; log 6). -/
opaque Config.otherView : MatrixState → Vector Byte 64

/-- The configuration of the engine that `State.reset` describes: the values R5 takes for the open parameters
(log 3 to 6), and the table left free (log 2). -/
def Config.engine : Config where
  K := Config.engineTable
  MULT := 1
  LENW := .unbounded
  BYTE_ORDER := .little
  KSVIEW := .padded

end Sys2Proof
end

