-- ==== Sys2Proof/Syntax.lean ====
section
/-! DEFINITION. The commands (30_encoding.md R45 to R47): their wire form, one header byte and the frames that followed it,
and their abstract form `Instr`, one constructor per row of opcode_table.json. -/

namespace Sys2Proof

/-- A command as it reaches the engine (R45): the header byte and the frames supplied, in order. An operand is absent when the
list ends before its frame; a present operand of length 0 is the empty frame. -/
structure Command where
  header : Byte
  frames : List Frame
deriving DecidableEq, Repr

/-- A command by name. Each carries all the frames supplied with it, too few and too many included, because what the machine
does with a malformed frame list is part of its meaning (R51). -/
inductive Instr where
  /-- `CLEAR`, opcode 0x00, takes no frame (R110). -/
  | clear (frames : List Frame)
  /-- `INIT`, opcode 0x01, takes frame 0 `KEY` and frame 1 `NONCE` (R111). -/
  | init (frames : List Frame)
  /-- `PROC`, opcode 0x02, takes frame 0 `DATA` (R113). -/
  | proc (frames : List Frame)
deriving DecidableEq, Repr

/-- The frames a command carries. -/
def Instr.frames : Instr → List Frame
  | .clear frames => frames
  | .init frames => frames
  | .proc frames => frames

end Sys2Proof
end

