-- ==== Sys2Proof/Machine/State.lean ====
section
/-! DEFINITION. The state of one engine and of its boundary to the host (10_state.md R10 to R22), as plain data, and its value
after reset. -/

namespace Sys2Proof.Machine

/-- The cipher context: exactly `S`, `M` and `MI` (R10, R26). -/
structure Context where
  /-- The state array (R11). -/
  S : StateArray
  /-- The matrix state, pad slots included (R12, R13). -/
  M : MatrixState
  /-- The one-shot flag `matrix_state_init`, 1 bit (R14). -/
  MI : Bool
deriving DecidableEq, Repr

/-- The response code of a command (30_encoding.md R49). -/
inductive ResponseCode where
  | ok
  | einval
deriving DecidableEq, Repr

/-- What the host receives at the end of a command: the code and, for a `PROC` answered `OK`, the output frame (R49). -/
structure Response where
  code : ResponseCode
  out : Option Frame
deriving DecidableEq, Repr

/-- What the host can do to an engine: issue a command, or pulse reset between two commands (R9, R140; log 7, log 14). -/
inductive HostMove where
  | command (c : Command)
  | reset
deriving DecidableEq, Repr

/-- One engine and its boundary to the host. -/
structure State where
  /-- The configuration, which no step writes (R5, R10; log 1). -/
  cfg : Config
  /-- The context, the whole of the engine's own state (R10, R26). -/
  ctx : Context
  /-- MODEL's own: the moves the host has yet to make, each after the response to the one before it (R144; log 7). -/
  input : List HostMove
  /-- MODEL's own: what the host has received, oldest first; the engine holds no response (R24; log 9). -/
  responses : List Response
deriving DecidableEq, Repr

/-- The reasons a step could stop with a fault: NONE. The one exception, `InvalidArgument`, leaves the machine running and is
taken as a next state (60_exceptions.md R125, R128; log 22). Safe: nothing can be claimed about a fault that never comes. -/
inductive Fault where
deriving DecidableEq, Repr

/-- The reasons a command could be refused. -/
inductive Refusal where
  /-- Raised by an arm of `exec` for a command without a meaning. Safe, and raised by no arm: every row of the opcode table
  has its meaning (log 22). -/
  | notModelled (mnemonic : String)
deriving DecidableEq, Repr

/-- The zero-filled context, the *uninitialized* one: every word of `S` and `M` zero, the pad slots included, `MI = 0`
(R22, R140). -/
def Context.zero : Context where
  S := Vector.replicate 16 0#32
  M := Vector.replicate 4 (Vector.replicate 4 0#32)
  MI := false

/-- The engine right after reset (R22, R140): the zero-filled context, the configuration as built, no move made and nothing
answered. -/
def State.reset : State where
  cfg := Config.engine
  ctx := Context.zero
  input := []
  responses := []

end Sys2Proof.Machine
end

