-- ==== Sys2Proof/Machine/Ops.lean ====
section
/-! DEFINITION. The operations every command is built from: words and their byte lanes, the three word stores, the answer to
the host, the one exception, and reset. -/

namespace Sys2Proof.Machine

/-! ## Words (00_scope.md R6) and byte lanes (20_memory.md R31) -/

/-- Left rotation of a word by `n`, `1 ≤ n ≤ 31` (R6, G1; log 18). -/
def rotl (x : Word) (n : Nat) : Word := (x <<< n) ||| (x >>> (32 - n))

/-- The lowest bit of byte `k` of a word: `bits[8k+7 : 8k]` under little, `bits[31-8k : 24-8k]` under big (R31). -/
def laneShift (order : ByteOrder) (k : Fin 4) : Nat :=
  match order with
  | .little => 8 * k.val
  | .big => 24 - 8 * k.val

/-- `byte_k(w)` (R31). -/
def byteOf (order : ByteOrder) (k : Fin 4) (w : Word) : Byte := (w >>> laneShift order k).setWidth 8

/-- Byte `k` of `w` exclusive-or `b`, the other lanes as they are (R31). -/
def xorLane (order : ByteOrder) (k : Fin 4) (b : Byte) (w : Word) : Word :=
  w ^^^ (b.setWidth 32 <<< laneShift order k)

/-! ## The word stores (R30): every index is reduced into range, so no access can miss -/

/-- The index `n mod 16` into `S`. -/
abbrev sIdx (n : Nat) : Fin 16 := Fin.ofNat 16 n

/-- `M[r][x]`. -/
def getM (M : MatrixState) (r x : Fin 4) : Word := M[r][x]

/-- `M[r][x] <- v`. -/
def setM (M : MatrixState) (r x : Fin 4) (v : Word) : MatrixState := M.set r (M[r].set x v)

/-- `K[n mod 24]` (R17). -/
def getK (cfg : Config) (n : Nat) : Word := cfg.K[Fin.ofNat 24 n]

/-- The rows of `M`, and the quarters: 0 to 3 (R7). -/
def quads : List (Fin 4) := [0, 1, 2, 3]

/-- The live slots of a row of `M`: col 0, row 1, dia 2 (R12; log 17). -/
def axes : List (Fin 4) := [0, 1, 2]

/-! ## The answer to the host (30_encoding.md R49) -/

/-- The byte of a response code (R49, R127). -/
def ResponseCode.byte : ResponseCode → Byte
  | .ok => 0x00#8
  | .einval => 0x01#8

/-- Ends a command with a response. -/
def respond (r : Response) (s : State) : State := { s with responses := s.responses ++ [r] }

/-- Ends a valid command: `OK`, with the output frame if it has one. -/
def respondOk (out : Option Frame) (s : State) : State := respond { code := .ok, out := out } s

/-- TAKING THE EXCEPTION. `raise InvalidArgument` (R8, R125): the command ends with `EINVAL`, no output frame and no change
to the engine; nothing is saved and there is no handler to return from (R127, R128, R131). -/
def raiseInvalidArgument (s : State) : State := respond { code := .einval, out := none } s

/-! ## Reset (70_reset_and_hazards.md R140) -/

/-- Zero-fills the context; the configuration is not touched (R22). `CLEAR` and the reset input have this one effect. -/
def zeroContext (s : State) : State := { s with ctx := Context.zero }

/-- A pulse of the reset input: the context only, no response (R140; log 14). -/
def resetEngine (s : State) : State := zeroContext s

end Sys2Proof.Machine
end

