-- ==== Sys2Proof/Machine/Diffusion.lean ====
section
/-! DEFINITION. The diffusion engine of 41_diffusion.md: `QREF` (R75), `MIX` (R77 to R79), `ROUND` (R80), `OUTER` (R81),
`COPYBACK` (R82), `DIFFUSE` (R83). -/

namespace Sys2Proof.Machine

/-! ## QREF: the quarter references are indices into `S`, computed anew from `i` (R75, R76) -/

/-- `colidx(i, q)`. -/
def colidx (i : Nat) (q : Fin 4) : Fin 16 := sIdx (((i &&& Lit.quarterMask) <<< Lit.quarterShift) + q.val)

/-- `rowidx(i, q)`. -/
def rowidx (i : Nat) (q : Fin 4) : Fin 16 := sIdx ((q.val <<< Lit.quarterShift) + (i &&& Lit.quarterMask))

/-- `diaidx(i, q)`: the whole of `i`, not `i & 3` (R75 (a)). -/
def diaidx (i : Nat) (q : Fin 4) : Fin 16 := sIdx (i + Lit.diagSkip q)

/-! ## MIX: sixteen statements on locations of one array, each complete before the next (R77, R79) -/

/-- `x <- x + p + y`. -/
def mixAdd (x : Fin 16) (p : Word) (y : Fin 16) (S : StateArray) : StateArray := S.set x (S[x] + p + S[y])

/-- `x <- x ^ y`. -/
def mixXor (x y : Fin 16) (S : StateArray) : StateArray := S.set x (S[x] ^^^ S[y])

/-- `x <- rotl(y + p, n)`. -/
def mixRot (x y : Fin 16) (p : Word) (n : Nat) (S : StateArray) : StateArray := S.set x (rotl (S[y] + p) n)

/-- `MIX`, statements 1 to 4. -/
def mix1 (a b : Fin 16) (p1 p2 : Word) (S : StateArray) : StateArray :=
  mixRot a a p1 Lit.rot4 (mixRot b b p1 Lit.rot3 (mixXor b a (mixAdd a p2 b S)))

/-- `MIX`, statements 5 to 8. -/
def mix2 (c d : Fin 16) (p1 p2 : Word) (S : StateArray) : StateArray :=
  mixRot c c p2 Lit.rot8 (mixRot d d p2 Lit.rot7 (mixXor d c (mixAdd c p1 d S)))

/-- `MIX`, statements 9 to 12. -/
def mix3 (a b : Fin 16) (p1 p2 : Word) (S : StateArray) : StateArray :=
  mixRot a a p2 Lit.rot12 (mixRot b b p2 Lit.rot11 (mixXor b a (mixAdd a p1 b S)))

/-- `MIX`, statements 13 to 16. Statement 15 rotates `c`, not `d` (R78). -/
def mix4 (c d : Fin 16) (p1 p2 : Word) (S : StateArray) : StateArray :=
  mixRot c c p1 Lit.rot16 (mixRot d c p1 Lit.rot15 (mixXor d c (mixAdd c p2 d S)))

/-- `MIX(ia, ib, ic, id; p1, p2)` (R77). -/
def mix (ia ib ic id : Fin 16) (p1 p2 : Word) (S : StateArray) : StateArray :=
  mix4 ic id p1 p2 (mix3 ia ib p1 p2 (mix2 ic id p1 p2 (mix1 ia ib p1 p2 S)))

/-! ## ROUND: the fixed wiring (R80) -/

def call1 (i : Nat) (M : MatrixState) (S : StateArray) : StateArray :=
  mix (colidx i 0) (rowidx i 3) (diaidx i 2) (rowidx i 1) (getM M 3 0) (getM M 2 2) S

def call2 (i : Nat) (M : MatrixState) (S : StateArray) : StateArray :=
  mix (colidx i 1) (rowidx i 0) (diaidx i 3) (rowidx i 2) (getM M 0 0) (getM M 3 2) S

def call3 (i : Nat) (M : MatrixState) (S : StateArray) : StateArray :=
  mix (colidx i 2) (rowidx i 1) (diaidx i 0) (rowidx i 3) (getM M 1 0) (getM M 0 2) S

def call4 (i : Nat) (M : MatrixState) (S : StateArray) : StateArray :=
  mix (colidx i 3) (rowidx i 2) (diaidx i 1) (rowidx i 0) (getM M 2 0) (getM M 1 2) S

/-- `ROUND(i)`: four calls of `MIX` in this order; `M` is read and not written (R80). -/
def round (i : Nat) (M : MatrixState) (S : StateArray) : StateArray :=
  call4 i M (call3 i M (call2 i M (call1 i M S)))

/-- The rounds of one outer iteration, one after another (R81). -/
def rounds (i : Nat) (M : MatrixState) : Nat → StateArray → StateArray
  | 0, S => S
  | n + 1, S => rounds i M n (round i M S)

/-! ## COPYBACK, OUTER, DIFFUSE -/

/-- Row `q` of `M` takes the three references of quarter `q`; the pad slot stays (R82; log 17). -/
def copyRow (i : Nat) (S : StateArray) (M : MatrixState) (q : Fin 4) : MatrixState :=
  setM (setM (setM M q 0 S[colidx i q]) q 1 S[rowidx i q]) q 2 S[diaidx i q]

/-- `COPYBACK(i)` (R82). -/
def copyback (i : Nat) (S : StateArray) (M : MatrixState) : MatrixState :=
  quads.foldl (copyRow i S) M

/-- `OUTER(i)`: three rounds, then the copy-back (R81). -/
def outer (i : Nat) (c : Context) : Context :=
  let S := rounds i c.M Lit.rounds c.S
  { c with S := S, M := copyback i S c.M }

/-- The outer iterations `i, i+1, …`, as many as the number says. -/
def outerFrom (i : Nat) : Nat → Context → Context
  | 0, c => c
  | n + 1, c => outerFrom (i + 1) n (outer i c)

/-- `DIFFUSE`: one pass, `i` from 0 to `4 * MULT - 1` (R83). -/
def diffuse (cfg : Config) (c : Context) : Context := outerFrom 0 (Lit.outerBase * cfg.MULT) c

end Sys2Proof.Machine
end

