-- ==== Sys2Proof/Machine/Keystream.lean ====
section
/-! DEFINITION. The keystream driver of 42_keystream_driver.md: `CTRADD` (R95), `KSVIEW` (R96), `XORBLK` (R97), and the loop
of `PROC` over its blocks (43_commands.md R113; R98). -/

namespace Sys2Proof.Machine

/-- `CTRADD(BC)`: `S[15] <- S[15] + (BC mod 2^32)` (R95). -/
def ctrAdd (BC : Nat) (c : Context) : Context :=
  { c with S := c.S.set 15 (c.S[15] + BitVec.ofNat 32 BC) }

/-- The padded view: the 16 words of `M` row by row, the bytes of each in lane order (R96). -/
def paddedView (order : ByteOrder) (M : MatrixState) : Frame :=
  quads.flatMap fun r => quads.flatMap fun x => quads.map fun k => byteOf order k (getM M r x)

/-- `KSVIEW(M)`: the 64 keystream bytes (R96), by the engine's `KSVIEW` (log 6). -/
def ksView (cfg : Config) (M : MatrixState) : Frame :=
  match cfg.KSVIEW with
  | .padded => paddedView cfg.BYTE_ORDER M
  | .other => (Config.otherView M).toList

/-- The bytes `DATA[OFF .. OFF+n-1]` (R8, R97). -/
def dataBlock (DATA : Frame) (OFF n : Nat) : Frame := (DATA.drop OFF).take n

/-- `XORBLK(OFF, n)`: the bytes it writes to `OUT[OFF .. OFF+n-1]`. Keystream bytes past `n` are dropped (R97, R20). -/
def xorBlk (cfg : Config) (M : MatrixState) (DATA : Frame) (OFF n : Nat) : Frame :=
  List.zipWith (fun d k => d ^^^ k) (dataBlock DATA OFF n) (ksView cfg M)

/-- Where the loop of `PROC` stands: its transients, the context, and the output written so far (R19, R113). -/
structure ProcLoop where
  BC : Nat
  OFF : Nat
  ctx : Context
  OUT : Frame
deriving DecidableEq, Repr

/-- The loop before its first turn: `BC <- 0; OFF <- 0` (R113). -/
def ProcLoop.start (c : Context) : ProcLoop where
  BC := 0
  OFF := 0
  ctx := c
  OUT := []

/-- One turn of the loop: one block (R113). -/
def procTurn (cfg : Config) (DATA : Frame) (l : ProcLoop) : ProcLoop :=
  let BC := l.BC + 1
  let ctx := diffuse cfg (ctrAdd BC l.ctx)
  let n := min Lit.blockLen (DATA.length - l.OFF)
  { BC := BC, OFF := l.OFF + n, ctx := ctx, OUT := l.OUT ++ xorBlk cfg ctx.M DATA l.OFF n }

/-- `while OFF < L`: turns until the data is used up (R113). The first argument bounds the turns; `L` of them always suffice,
since `OFF` grows by at least 1 in each (R113 (c), R151). -/
def procTurns (cfg : Config) (DATA : Frame) : Nat → ProcLoop → ProcLoop
  | 0, l => l
  | n + 1, l => if l.OFF < DATA.length then procTurns cfg DATA n (procTurn cfg DATA l) else l

/-- The whole loop of a `PROC` of `DATA` on a context. -/
def procLoop (cfg : Config) (DATA : Frame) (c : Context) : ProcLoop :=
  procTurns cfg DATA DATA.length (ProcLoop.start c)

end Sys2Proof.Machine
end

