-- ==== Sys2Proof/Machine/Operands.lean ====
section
/-! DEFINITION. Operand assembly (30_encoding.md R48) and the causes of `InvalidArgument` (60_exceptions.md R126). -/

namespace Sys2Proof.Machine

/-- The causes of `InvalidArgument` a command can meet in hardware (R126). IA9 and IA10 cannot be expressed (R51). No cause
is recorded anywhere (R126, R129). -/
inductive Cause where
  /-- IA1 -/
  | keyAbsent
  /-- IA2 -/
  | nonceAbsent
  /-- IA3 -/
  | keyEmpty
  /-- IA4 -/
  | dataAbsent
  /-- IA5 -/
  | dataEmpty
  /-- IA6 -/
  | nonceLength
  /-- IA7 -/
  | tooManyFrames
  /-- IA8 -/
  | reservedOpcode
deriving DecidableEq, Repr

/-- `KEY`: frame 0 of `INIT`, absent when it was not supplied (R48). -/
def keyOperand (frames : List Frame) : Option Frame := frames[0]?

/-- `NONCE`: frame 1 of `INIT` (R48). -/
def nonceOperand (frames : List Frame) : Option Frame := frames[1]?

/-- `DATA`: frame 0 of `PROC` (R48). -/
def dataOperand (frames : List Frame) : Option Frame := frames[0]?

/-- `[c]` where the condition holds, nothing where it does not. -/
def causeIf (b : Bool) (c : Cause) : List Cause := if b then [c] else []

/-- Every cause a `CLEAR` with these frames meets (R110, R51). -/
def clearCauses (frames : List Frame) : List Cause :=
  causeIf (decide (0 < frames.length)) .tooManyFrames

/-- Every cause an `INIT` with these frames meets: R112 (a) to (e) in that order. -/
def initCauses (frames : List Frame) : List Cause :=
  causeIf (keyOperand frames).isNone .keyAbsent
    ++ causeIf (nonceOperand frames).isNone .nonceAbsent
    ++ causeIf ((keyOperand frames).any fun key => key.length == 0) .keyEmpty
    ++ causeIf ((nonceOperand frames).any fun nonce => nonce.length != Lit.nonceLen) .nonceLength
    ++ causeIf (decide (2 < frames.length)) .tooManyFrames

/-- Every cause a `PROC` with these frames meets: R114 (a) to (c) in that order. -/
def procCauses (frames : List Frame) : List Cause :=
  causeIf (dataOperand frames).isNone .dataAbsent
    ++ causeIf ((dataOperand frames).any fun data => data.length == 0) .dataEmpty
    ++ causeIf (decide (1 < frames.length)) .tooManyFrames

/-- The operands of an `INIT`, where no cause holds. -/
def initOperands (frames : List Frame) : Option (Frame × Frame) :=
  match initCauses frames, keyOperand frames, nonceOperand frames with
  | [], some key, some nonce => some (key, nonce)
  | _, _, _ => none

/-- The operand of a `PROC`, where no cause holds. -/
def procOperand (frames : List Frame) : Option Frame :=
  match procCauses frames, dataOperand frames with
  | [], some data => some data
  | _, _ => none

/-- Every cause an instruction meets. -/
def causes : Instr → List Cause
  | .clear frames => clearCauses frames
  | .init frames => initCauses frames
  | .proc frames => procCauses frames

end Sys2Proof.Machine
end

