-- ==== Sys2Proof/Machine/Flags.lean ====
section
/-! DEFINITION. The one flag, `MI` (10_state.md R14), and the status it stands for (R15). There are no arithmetic flags (R6, R14). -/

namespace Sys2Proof.Machine

/-- `MI <- 1` (R14): only `DERIVE` does this. `MI <- 0` is part of the zero-fill (`zeroContext`). -/
def raiseMI (c : Context) : Context := { c with MI := true }

/-- The two states of a context (R15). -/
inductive Status where
  | uninitialized
  | active
deriving DecidableEq, Repr

/-- *Active* exactly when `MI = 1` (R15). -/
def Context.status (c : Context) : Status := if c.MI then .active else .uninitialized

end Sys2Proof.Machine
end

