-- ==== Sys2Proof/Machine/Seed.lean ====
section
/-! DEFINITION. The micro-operations of 40_seed_absorb_derive.md: `SEED` (R60), `ABSORB` (R63), `DERIVE` (R66). -/

namespace Sys2Proof.Machine

/-! ## SEED -/

/-- `trunc_LENW` (R60). -/
def truncLen (lenw : LenWidth) (v : Nat) : Nat :=
  match lenw with
  | .w32 => v % 2 ^ 32
  | .w64 => v % 2 ^ 64
  | .unbounded => v

/-- The seed index of word `i` for a key of `KL` bytes (R60). -/
def seedIndex (lenw : LenWidth) (KL i : Nat) : Nat :=
  truncLen lenw (truncLen lenw (KL <<< Lit.seedShift) * (i + 1)) % Lit.tableWords

/-- The words `SEED(KL)` writes into `S`, whatever `S` held (R60 (c)). -/
def seedWords (cfg : Config) (KL : Nat) : StateArray :=
  Vector.ofFn fun i : Fin 16 => getK cfg (seedIndex cfg.LENW KL i.val)

/-- `SEED(KL)` (R60). -/
def seed (cfg : Config) (KL : Nat) (c : Context) : Context := { c with S := seedWords cfg KL }

/-! ## ABSORB -/

/-- Folds byte number `j` of a frame into its lane of its word (R63). -/
def absorbByte (order : ByteOrder) (j : Nat) (b : Byte) (S : StateArray) : StateArray :=
  let w := sIdx (j / 4)
  S.set w (xorLane order (Fin.ofNat 4 j) b S[w])

/-- Folds a frame whose first byte has number `j`, byte after byte (R63). -/
def absorbFrom (order : ByteOrder) : Nat → Frame → StateArray → StateArray
  | _, [], S => S
  | j, b :: rest, S => absorbFrom order (j + 1) rest (absorbByte order j b S)

/-- `ABSORB(F)`: the byte numbers start at 0 in every call (R63, R64). -/
def absorb (cfg : Config) (F : Frame) (c : Context) : Context :=
  { c with S := absorbFrom cfg.BYTE_ORDER 0 F c.S }

/-! ## DERIVE -/

/-- `op` of row `r`, slot `x` (R66, R67). -/
def deriveOp (r x : Fin 4) : Nat := r.val * Lit.deriveRow + x.val * Lit.deriveCol

/-- `M[r][x] <- M[r][x] ^ S[op mod 16] ^ K[op mod 24]` (R66). -/
def deriveCell (cfg : Config) (S : StateArray) (M : MatrixState) (r x : Fin 4) : MatrixState :=
  setM M r x (getM M r x ^^^ S[sIdx (deriveOp r x)] ^^^ getK cfg (deriveOp r x))

/-- The body of `DERIVE`: rows in order, in each the live slots in order (R66). -/
def deriveCells (cfg : Config) (S : StateArray) (M : MatrixState) : MatrixState :=
  quads.foldl (fun M r => axes.foldl (fun M x => deriveCell cfg S M r x) M) M

/-- `DERIVE` (R66): nothing where `MI = 1`, else the body, then `MI <- 1`. -/
def derive (cfg : Config) (c : Context) : Context :=
  if c.MI then c else raiseMI { c with M := deriveCells cfg c.S c.M }

end Sys2Proof.Machine
end

