-- ==== Sys2Proof/Machine/Commands.lean ====
section
/-! DEFINITION. The meanings of the three commands (43_commands.md R110 to R114), each run as written on whatever context it
finds (R115, R116; log 15). -/

namespace Sys2Proof.Machine

/-- What a valid `INIT` does to the context, its micro-operations in order (R111). The warm-up is a plain pass (R111 (a)). -/
def initContext (cfg : Config) (KEY NONCE : Frame) (c : Context) : Context :=
  diffuse cfg (derive cfg (absorb cfg NONCE (absorb cfg KEY (seed cfg KEY.length c))))

/-- `CLEAR` (R110). -/
def execClear (frames : List Frame) (s : State) : Host.Outcome State Fault Refusal :=
  match clearCauses frames with
  | [] => .next (respondOk none (zeroContext s))
  | _ :: _ => .next (raiseInvalidArgument s)

/-- `INIT` (R111, R112). -/
def execInit (frames : List Frame) (s : State) : Host.Outcome State Fault Refusal :=
  match initOperands frames with
  | some (KEY, NONCE) => .next (respondOk none { s with ctx := initContext s.cfg KEY NONCE s.ctx })
  | none => .next (raiseInvalidArgument s)

/-- `PROC` (R113, R114). -/
def execProc (frames : List Frame) (s : State) : Host.Outcome State Fault Refusal :=
  match procOperand frames with
  | some DATA =>
    let l := procLoop s.cfg DATA s.ctx
    .next (respondOk (some l.OUT) { s with ctx := l.ctx })
  | none => .next (raiseInvalidArgument s)

end Sys2Proof.Machine
end

