-- ==== Sys2Proof/Machine/Dispatch.lean ====
section
/-! DEFINITION. One arm per instruction. -/

namespace Sys2Proof.Machine

def exec (i : Instr) (s : State) : Host.Outcome State Fault Refusal :=
  match i with
  | .clear frames => Sys2Proof.Machine.execClear frames s
  | .init frames => Sys2Proof.Machine.execInit frames s
  | .proc frames => Sys2Proof.Machine.execProc frames s

end Sys2Proof.Machine
end

