-- ==== Sys2Proof/WellFormed.lean ====
section
/-! DEFINITION. Which commands carry the frames their opcode takes, each of a length it admits
(30_encoding.md R47, R51; 43_commands.md R110, R112, R114). -/

namespace Sys2Proof

/-- The number of frames an opcode takes (R47). -/
def Instr.arity : Instr → Nat
  | .clear _ => 0
  | .init _ => 2
  | .proc _ => 1

/-- As many frames as the opcode takes, no more and no fewer (R51). -/
def Instr.frameCountOk (i : Instr) : Bool := i.frames.length == i.arity

/-- The operand the command begins with, the key of `INIT` and the data of `PROC`, has at least one byte (R112 (c), R114 (b)). -/
def Instr.firstOperandOk : Instr → Bool
  | .clear _ => true
  | .init frames => (frames.headD []).length != 0
  | .proc frames => (frames.headD []).length != 0

/-- The nonce of `INIT` has exactly 12 bytes (R112 (d)). -/
def Instr.nonceOk : Instr → Bool
  | .clear _ => true
  | .init frames => (frames.getD 1 []).length == Machine.Lit.nonceLen
  | .proc _ => true

/-- A command whose frames are what its opcode takes: the spec's *valid* command. -/
def Instr.wellFormed (i : Instr) : Bool := i.frameCountOk && i.firstOperandOk && i.nonceOk

end Sys2Proof
end

