-- ==== Sys2Proof/Decode.lean ====
section
/-! DEFINITION. The decoder (30_encoding.md R46, R47, R50, R52), total on any header byte, and the encoder. -/

namespace Sys2Proof

/-- What the decoder answers: an instruction, or the reserved opcode it rejects (R50). -/
inductive Decoded where
  | instr (i : Instr)
  | reservedOpcode (op : Byte)
deriving DecidableEq, Repr

/-- Reads the header byte and knows the command; the frames go with it as they are (R47, R48, R52). -/
def decode (c : Command) : Decoded :=
  if c.header = 0x00#8 then .instr (.clear c.frames)
  else if c.header = 0x01#8 then .instr (.init c.frames)
  else if c.header = 0x02#8 then .instr (.proc c.frames)
  else .reservedOpcode c.header

/-- The opcode of an instruction (R47). -/
def Instr.opcode : Instr → Byte
  | .clear _ => 0x00#8
  | .init _ => 0x01#8
  | .proc _ => 0x02#8

/-- The wire form of an instruction: its opcode, then its frames (R45, R46). -/
def encode (i : Instr) : Command where
  header := i.opcode
  frames := i.frames

/-- The operand frames the table names for an opcode, at their shortest valid length and all zeros. The table gives operands
no bits, so this is what stands behind a row's 8 header bits when the host asks about the row (log 10). -/
def tableFrames (header : Byte) : List Frame :=
  if header = 0x01#8 then [List.replicate 1 0#8, List.replicate Machine.Lit.nonceLen 0#8]
  else if header = 0x02#8 then [List.replicate 1 0#8]
  else []

/-- The command of a table row: bits 7 to 0 of `w` are the header; bits the row does not have (at or above `nbits`) are zero. -/
def tableCommand (nbits w : Nat) : Command :=
  let header := BitVec.ofNat 8 (w % 2 ^ nbits)
  { header := header, frames := tableFrames header }

/-- The instruction the decoder reads from a table row. Format `C8` is the one format, 8 bits (R46): a row of another width
is no instruction of this hardware. -/
def decodeTableWord (nbits w : Nat) : Option Instr :=
  if nbits = 8 then
    match decode (tableCommand nbits w) with
    | .instr i => some i
    | .reservedOpcode _ => none
  else none

end Sys2Proof
end

