-- ==== Sys2Proof/Machine/Fetch.lean ====
section
/-! DEFINITION. Taking the host's next move. There is no program counter and no instruction memory (10_state.md R23): the
instructions of a run are the commands the host issues, one after another (00_scope.md R9). -/

namespace Sys2Proof.Machine

/-- What the engine finds at its boundary; `s` is the state with the move taken. -/
inductive Fetched where
  /-- No move: the engine waits (R140). -/
  | waiting
  /-- The reset input is pulsed. -/
  | reset (s : State)
  /-- A command with a reserved opcode (R50). -/
  | reservedOpcode (op : Byte) (s : State)
  /-- A command the decoder knows. -/
  | instr (i : Instr) (s : State)
deriving DecidableEq, Repr

/-- Takes the host's next move and decodes it. -/
def fetch (s : State) : Fetched :=
  match s.input with
  | [] => .waiting
  | .reset :: rest => .reset { s with input := rest }
  | .command c :: rest =>
    match decode c with
    | .instr i => .instr i { s with input := rest }
    | .reservedOpcode op => .reservedOpcode op { s with input := rest }

/-- Puts a command where the next step takes it: before the moves the host has yet to make. -/
def issueNext (c : Command) (s : State) : State := { s with input := .command c :: s.input }

end Sys2Proof.Machine
end

