-- ==== Sys2Proof/Machine/Step.lean ====
section
/-! DEFINITION. One step: one move of the host, answered by the engine (00_scope.md R9). -/

namespace Sys2Proof.Machine

/-- One atomic transition (R9). With no move to take, the engine waits and nothing changes (R140; log 8). A reserved opcode is
an invalid argument (R50; log 12). -/
def step (s : State) : Host.Outcome State Fault Refusal :=
  match fetch s with
  | .waiting => .next s
  | .reset s' => .next (resetEngine s')
  | .reservedOpcode _ s' => .next (raiseInvalidArgument s')
  | .instr i s' => exec i s'

/-- The state whose next step runs the command of a table row, its operands zero (log 10). -/
def State.withFetchWord (s : State) (nbits w : Nat) : State := issueNext (tableCommand nbits w) s

end Sys2Proof.Machine
end

