-- ==== Sys2Proof/Machine/Asm.lean ====
section
/-! DEFINITION. The text form of commands (30_encoding.md R53) and the pseudo-instructions (R54). The engine never sees text:
this file only says which commands a program written in the spec's syntax issues (log 25). -/

namespace Sys2Proof.Machine.Asm

/-- An operand as text gives it: `-`, absent, or bytes, `""` the empty frame (R53). -/
inductive Operand where
  | absent
  | bytes (b : Frame)
deriving DecidableEq, Repr

/-- The frames supplied: an absent operand and all later ones are not (R53). -/
def supplied : List Operand → List Frame
  | .bytes b :: rest => b :: supplied rest
  | .absent :: _ => []
  | [] => []

/-! ## Pseudo-instructions (R54) -/

/-- `ENC data=X`. -/
def enc (data : Operand) : List Instr := [.proc (supplied [data])]

/-- `DEC data=X`. -/
def dec (data : Operand) : List Instr := [.proc (supplied [data])]

/-- `NEWCTX key=X nonce=Y`. -/
def newctx (key nonce : Operand) : List Instr := [.clear [], .init (supplied [key, nonce])]

/-! ## The text form (R53) -/

/-- The place of a character in a row of digits, which is its value as a digit. -/
def placeIn : List Char → Char → Option Nat
  | [], _ => none
  | d :: digits, c => if c = d then some 0 else (placeIn digits c).map Nat.succ

/-- The ten decimal digits. -/
def decimalDigits : List Char := "0123456789".toList

/-- The value of a hexadecimal digit, capital or small. -/
def hexDigit (c : Char) : Option Nat :=
  match placeIn (decimalDigits ++ "ABCDEF".toList) c with
  | some v => some v
  | none => placeIn (decimalDigits ++ "abcdef".toList) c

/-- The byte two hexadecimal digits write. -/
def hexByte (hi lo : Char) : Option Byte :=
  match hexDigit hi, hexDigit lo with
  | some h, some l => some (BitVec.ofNat 8 (16 * h + l))
  | _, _ => none

/-- An even-length string of hexadecimal digits, two per byte, first byte first. -/
def hexBytes : List Char → Option Frame
  | [] => some []
  | [_] => none
  | hi :: lo :: rest =>
    match hexByte hi lo, hexBytes rest with
    | some b, some bs => some (b :: bs)
    | _, _ => none

/-- A decimal number, its value so far given. -/
def decimalFrom (acc : Nat) : List Char → Option Nat
  | [] => some acc
  | c :: rest =>
    match placeIn decimalDigits c with
    | some v => decimalFrom (10 * acc + v) rest
    | none => none

/-- `NN*count`: so many copies of one byte. -/
def repetition (hi lo : Char) (count : List Char) : Option Frame :=
  match hexByte hi lo, count, decimalFrom 0 count with
  | some b, _ :: _, some n => some (List.replicate n b)
  | _, _, _ => none

/-- One operand's text. -/
def operand (t : List Char) : Option Operand :=
  match t with
  | [] => none
  | ['-'] => some .absent
  | ['"', '"'] => some (.bytes [])
  | hi :: lo :: '*' :: count => (repetition hi lo count).map .bytes
  | t => (hexBytes t).map .bytes

/-- An operand with its name and `=` before it. -/
def named (name : String) (t : List Char) : Option Operand :=
  let label := name.toList ++ ['=']
  if t.take label.length = label then operand (t.drop label.length) else none

/-- The words of a line, split at spaces; the word being read is kept turned round. -/
def wordsFrom (word : List Char) : List Char → List (List Char)
  | [] => if word = [] then [] else [word.reverse]
  | c :: rest =>
    if c = ' ' then (if word = [] then wordsFrom [] rest else word.reverse :: wordsFrom [] rest)
    else wordsFrom (c :: word) rest

/-- The instructions of one line's words; an empty line has none. -/
def statement : List (List Char) → Option (List Instr)
  | [] => some []
  | [op] => if op = "CLEAR".toList then some [.clear []] else none
  | [op, a] =>
    match named "data" a with
    | none => none
    | some data =>
      if op = "PROC".toList then some [.proc (supplied [data])]
      else if op = "ENC".toList then some (enc data)
      else if op = "DEC".toList then some (dec data)
      else none
  | [op, a, b] =>
    match named "key" a, named "nonce" b with
    | some key, some nonce =>
      if op = "INIT".toList then some [.init (supplied [key, nonce])]
      else if op = "NEWCTX".toList then some (newctx key nonce)
      else none
    | _, _ => none
  | _ => none

/-- One line: `#` starts a comment. -/
def line (l : List Char) : Option (List Instr) := statement (wordsFrom [] (l.takeWhile fun c => c != '#'))

/-- The lines of a text; the line being read is kept turned round. -/
def linesFrom (l : List Char) : List Char → List (List Char)
  | [] => [l.reverse]
  | c :: rest => if c = '\n' then l.reverse :: linesFrom [] rest else linesFrom (c :: l) rest

/-- The instructions of all lines, if every line is one of the forms of R53 and R54. -/
def lines : List (List Char) → Option (List Instr)
  | [] => some []
  | l :: rest =>
    match line l, lines rest with
    | some is, some more => some (is ++ more)
    | _, _ => none

/-- The commands a program text issues, in their wire form. -/
def assemble (text : String) : Option (List Command) := (lines (linesFrom [] text.toList)).map fun is => is.map encode

end Sys2Proof.Machine.Asm
end

