-- ==== Sys2Proof/Safety.lean ====
section
/-! DEFINITION. What a state of an engine in use looks like, the host duties a claim may take as premises
(70_reset_and_hazards.md, section 5), and the terms in which claims are made. -/

namespace Sys2Proof.Machine

/-- The pad slots of `M` read 0 (R13). -/
abbrev padZero (M : MatrixState) : Prop := ∀ r : Fin 4, getM M r 3 = 0#32

/-- The invariant of every engine: its pad slots are zero (R13) and its multiplier is at least 1 (R18). -/
abbrev State.Inv (s : State) : Prop := padZero s.ctx.M ∧ s.cfg.wf

/-- The zero-filled context, word by word (R22). -/
abbrev Context.zeroed (c : Context) : Prop :=
  (∀ i : Fin 16, c.S[i] = 0#32) ∧ (∀ r x : Fin 4, getM c.M r x = 0#32) ∧ c.MI = false

/-- Host duty H2: an `INIT` is issued only on the cleared context (R143). Host duty H3: a `PROC` only on an active one
(R117). Other commands owe nothing. -/
abbrev State.keepsContract (s : State) : Instr → Prop
  | .clear _ => True
  | .init _ => s.ctx.zeroed
  | .proc _ => s.ctx.status = .active

/-- The answer to a valid command without output, and to an invalid one (R49). -/
abbrev Response.okNone : Response := { code := .ok, out := none }
abbrev Response.okWith (out : Frame) : Response := { code := .ok, out := some out }
abbrev Response.invalid : Response := { code := .einval, out := none }

/-- The answer to a `PROC` whose output would be these bytes: none for no data, which is an invalid argument (R103, R114). -/
abbrev Response.forBytes (out : Frame) : Response := if out = [] then Response.invalid else Response.okWith out

/-- The state an invalid command leaves: nothing changed but the answer given (R128). -/
abbrev State.noOp (s : State) : State := { s with responses := s.responses ++ [Response.invalid] }

/-- The number of blocks of `L` bytes of data: `ceil(L / 64)` (R98). -/
def blockCount (L : Nat) : Nat := (L + 63) / 64

/-- The context after the first `n` blocks of a `PROC`: a counter step, with 1, 2, …, and a pass for each (R99). -/
def Context.afterBlocks (cfg : Config) (c : Context) : Nat → Context
  | 0 => c
  | n + 1 => diffuse cfg (ctrAdd (n + 1) (c.afterBlocks cfg n))

/-- Keystream byte `j` of a `PROC` begun on `c`: byte `j mod 64` of the view after block `j div 64` (counting from 0). -/
def Context.keystreamByte (cfg : Config) (c : Context) (j : Nat) : Byte :=
  (ksView cfg (c.afterBlocks cfg (j / 64 + 1)).M).getD (j % 64) 0#8

/-- The keystream a `PROC` used, read off its data and its output: one exclusive-or the other, byte by byte (R97, R102). -/
def keystreamUsed (data out : Frame) : Frame := List.zipWith (fun d o => d ^^^ o) data out

/-- What the bytes of a frame, the first of them number `j`, fold onto lane `p` of the 64 lanes of `S`: lane `k` of word `w`
is `p = 4w + k` (R63). -/
def laneFoldFrom (p : Nat) : Nat → Frame → Byte
  | _, [] => 0#8
  | j, b :: rest => (if j % 64 = p then b else 0#8) ^^^ laneFoldFrom p (j + 1) rest

/-- What a whole frame folds onto lane `p`. -/
def laneFold (p : Nat) (F : Frame) : Byte := laneFoldFrom p 0 F

/-- The host's move of issuing an instruction. -/
def issue (i : Instr) : HostMove := .command (encode i)

/-- The moves of one message: clear, initialize, process it in pieces (R142). -/
def message (KEY NONCE : Frame) (pieces : List Frame) : List HostMove :=
  issue (.clear []) :: issue (.init [KEY, NONCE]) :: pieces.map fun d => issue (.proc [d])

end Sys2Proof.Machine
end

