-- ==== Sys2Proof/Certificates/Slice0/Obligations.lean ====
section
/-! DEFINITION. The statements for the provers. Each says which rule of spec/ it formalises, or that it rests on the model's
own choice. Every statement is for every configuration: `K`, `MULT`, `LENW`, `BYTE_ORDER` and `KSVIEW` are what the state
holds, unless a premise says otherwise. -/

open Sys2Proof Sys2Proof.Machine

/-! ## Reset and CLEAR -/

/-- R22. After reset, after a pulse of the reset input, and after `CLEAR`, every word of the context is zero and `MI = 0`;
the configuration keeps its values. -/
def Obligations.ResetAndClearZeroTheContext : Prop :=
  State.reset.ctx.zeroed ∧
  (∀ (s : State) (rest : List HostMove), s.input = .reset :: rest →
    ∃ t, step s = .next t ∧ t.ctx.zeroed ∧ t.cfg = s.cfg) ∧
  (∀ s : State, ∃ t, exec (.clear []) s = .next t ∧ t.ctx.zeroed ∧ t.cfg = s.cfg)

/-- R140, with the model's reading of where a reset can land (log 14). A reset pulse, taken between two commands, zero-fills
the context and changes nothing else: it answers nothing, and the moves after it are still to come. -/
def Obligations.ResetPulseAnswersNothing : Prop :=
  ∀ (s : State) (rest : List HostMove), s.input = .reset :: rest →
    step s = .next { s with ctx := Context.zero, input := rest }

/-- R110. `CLEAR` without a frame zero-fills the context and answers `OK`; with any frame it is an invalid argument. Either
way nothing else changes. -/
def Obligations.ClearZeroFillsOrRejectsFrames : Prop :=
  ∀ (s : State) (frames : List Frame),
    (frames = [] → exec (.clear frames) s =
      .next { s with ctx := Context.zero, responses := s.responses ++ [Response.okNone] }) ∧
    (frames ≠ [] → exec (.clear frames) s = .next s.noOp)

/-- R110, its corner case: after `CLEAR` nothing of the key, the nonce or the keystream position remains. Two engines that
differ in their contexts alone, both first cleared, are equal after every further number of steps. -/
def Obligations.ClearForgetsTheContext : Prop :=
  ∀ (s : State) (c : Context) (rest : List HostMove) (n : Nat), s.input = issue (.clear []) :: rest →
    core.run (n + 1) s = core.run (n + 1) { s with ctx := c }

/-! ## INIT -/

/-- R111. A valid `INIT` runs `SEED`, `ABSORB` of the key, `ABSORB` of the nonce, `DERIVE` and one `DIFFUSE`, answers `OK`,
and changes nothing but the context and the answers. -/
def Obligations.InitRunsItsMicroOperationsInOrder : Prop :=
  ∀ (s : State) (KEY NONCE : Frame), KEY ≠ [] → NONCE.length = 12 →
    exec (.init [KEY, NONCE]) s = .next { s with
      ctx := diffuse s.cfg (derive s.cfg (absorb s.cfg NONCE (absorb s.cfg KEY (seed s.cfg KEY.length s.ctx))))
      responses := s.responses ++ [Response.okNone] }

/-- R112. `INIT` is invalid exactly when the key or the nonce is absent, the key is empty, the nonce is not 12 bytes long or
there are more than two frames; then nothing changes. Every other `INIT` is answered `OK`. -/
def Obligations.InitInvalidExactlyWhen : Prop :=
  ∀ (s : State) (frames : List Frame),
    ((frames[0]? = none ∨ frames[1]? = none ∨ frames[0]? = some [] ∨
        (∃ NONCE, frames[1]? = some NONCE ∧ NONCE.length ≠ 12) ∨ 2 < frames.length) →
      exec (.init frames) s = .next s.noOp) ∧
    (¬ (frames[0]? = none ∨ frames[1]? = none ∨ frames[0]? = some [] ∨
        (∃ NONCE, frames[1]? = some NONCE ∧ NONCE.length ≠ 12) ∨ 2 < frames.length) →
      ∃ t, exec (.init frames) s = .next t ∧ t.responses = s.responses ++ [Response.okNone])

/-- R115 (an inference the spec marks as derived). `SEED` overwrites `S`, so two engines alike but for `S` agree after an
`INIT`; where `MI = 1` the deriver is skipped and the warm-up runs on the `M` that is there. -/
def Obligations.InitIgnoresOldStateArrayAndKeepsOldMatrix : Prop :=
  ∀ (s : State) (S' : StateArray) (KEY NONCE : Frame), KEY ≠ [] → NONCE.length = 12 →
    (∃ t t', exec (.init [KEY, NONCE]) s = .next t ∧
      exec (.init [KEY, NONCE]) { s with ctx := { s.ctx with S := S' } } = .next t' ∧ t.ctx = t'.ctx) ∧
    (s.ctx.MI = true → ∃ t, exec (.init [KEY, NONCE]) s = .next t ∧
      t.ctx = diffuse s.cfg { s.ctx with
        S := (absorb s.cfg NONCE (absorb s.cfg KEY (seed s.cfg KEY.length s.ctx))).S })

/-- R68, R117 and H2 of 70_reset_and_hazards.md, section 5. On the cleared context `INIT` runs the deriver's body: before the
warm-up every live word of `M` is the exclusive-or of its word of `S` and its word of `K`, and the context ends active. -/
def Obligations.InitOnContractDerivesFromStateAndTable : Prop :=
  ∀ (s : State) (KEY NONCE : Frame), KEY ≠ [] → NONCE.length = 12 → s.keepsContract (.init [KEY, NONCE]) →
    ∃ (t : State) (c : Context), exec (.init [KEY, NONCE]) s = .next t ∧ t.ctx = diffuse s.cfg c ∧
      c.S = (absorb s.cfg NONCE (absorb s.cfg KEY (seed s.cfg KEY.length s.ctx))).S ∧
      (∀ r x : Fin 4, x ≠ 3 →
        getM c.M r x = c.S[Fin.ofNat 16 (7 * r.val + 11 * x.val)] ^^^ s.cfg.K[Fin.ofNat 24 (7 * r.val + 11 * x.val)]) ∧
      t.ctx.status = .active

/-! ## SEED -/

/-- R60, its corner cases, and R61 (which the spec derives). Under `LENW` unbounded the index is 8 times
`(KL * (i + 1)) mod 3`; 32 bits give the same for keys up to 127 bytes, 64 bits for keys below 2^39. -/
def Obligations.SeedIndexClosedForm : Prop :=
  ∀ KL i : Nat,
    seedIndex .unbounded KL i = 8 * ((KL * (i + 1)) % 3) ∧
    (i < 16 → KL ≤ 127 → seedIndex .w32 KL i = seedIndex .unbounded KL i) ∧
    (i < 16 → KL < 2 ^ 39 → seedIndex .w64 KL i = seedIndex .unbounded KL i)

/-- R60. `SEED` writes to each `S[i]` the constant at `trunc(trunc(KL << 21) * (i + 1)) mod 24`, where `trunc` is modulo 2^32,
modulo 2^64, or nothing; it changes neither `M` nor `MI`. -/
def Obligations.SeedWritesTheIndexedConstants : Prop :=
  ∀ (cfg : Config) (KL : Nat) (c : Context) (i : Fin 16),
    (cfg.LENW = .w32 → (seed cfg KL c).S[i] = cfg.K[Fin.ofNat 24 (KL * 2 ^ 21 % 2 ^ 32 * (i.val + 1) % 2 ^ 32)]) ∧
    (cfg.LENW = .w64 → (seed cfg KL c).S[i] = cfg.K[Fin.ofNat 24 (KL * 2 ^ 21 % 2 ^ 64 * (i.val + 1) % 2 ^ 64)]) ∧
    (cfg.LENW = .unbounded → (seed cfg KL c).S[i] = cfg.K[Fin.ofNat 24 (KL * 2 ^ 21 * (i.val + 1))]) ∧
    (seed cfg KL c).M = c.M ∧ (seed cfg KL c).MI = c.MI

/-- R62. The seeded state depends on the key length only: whatever the contexts held, and, under `LENW` unbounded, it is the
same for two lengths that agree modulo 3. -/
def Obligations.SeededStateDependsOnKeyLengthOnly : Prop :=
  ∀ (cfg : Config) (KL KL' : Nat) (c c' : Context),
    (seed cfg KL c).S = (seed cfg KL c').S ∧
    (cfg.LENW = .unbounded → KL % 3 = KL' % 3 → (seed cfg KL c).S = (seed cfg KL' c').S)

/-! ## ABSORB -/

/-- R63. Absorbing a frame exclusive-ors onto each of the 64 lanes of `S` the bytes whose numbers are that lane modulo 64, in
the byte order of the engine, and changes neither `M` nor `MI`. -/
def Obligations.AbsorbFoldsEveryLane : Prop :=
  ∀ (cfg : Config) (F : Frame) (c : Context),
    (∀ (w : Fin 16) (k : Fin 4),
      byteOf cfg.BYTE_ORDER k (absorb cfg F c).S[w] =
        byteOf cfg.BYTE_ORDER k c.S[w] ^^^ laneFold (4 * w.val + k.val) F) ∧
    (absorb cfg F c).M = c.M ∧ (absorb cfg F c).MI = c.MI

/-- R64. The two absorptions of `INIT` both start at word 0 and add up: every lane takes the key's fold and the nonce's, and
the 12 nonce bytes reach `S[0]`, `S[1]` and `S[2]` alone. -/
def Obligations.NonceRestartsAtWordZero : Prop :=
  ∀ (cfg : Config) (KEY NONCE : Frame) (c : Context), NONCE.length = 12 →
    (∀ (w : Fin 16) (k : Fin 4),
      byteOf cfg.BYTE_ORDER k (absorb cfg NONCE (absorb cfg KEY c)).S[w] =
        byteOf cfg.BYTE_ORDER k c.S[w] ^^^ laneFold (4 * w.val + k.val) KEY ^^^ laneFold (4 * w.val + k.val) NONCE) ∧
    (∀ w : Fin 16, 3 ≤ w.val → (absorb cfg NONCE (absorb cfg KEY c)).S[w] = (absorb cfg KEY c).S[w]) ∧
    (∀ j : Nat, j < 12 → laneFold j NONCE = NONCE.getD j 0#8)

/-- R65 (an inference the spec marks as derived). Under `LENW` unbounded two keys whose lengths agree modulo 3 and whose bytes
fold to the same 64 lanes lead `INIT` to the same context; so a 128-byte key whose halves are equal is as good as all zeros. -/
def Obligations.KeysThatFoldAlikeAreEquivalent : Prop :=
  ∀ (s : State) (KEY KEY' NONCE : Frame), s.cfg.LENW = .unbounded → KEY ≠ [] → KEY' ≠ [] → NONCE.length = 12 →
    (KEY.length % 3 = KEY'.length % 3 → (∀ p, p < 64 → laneFold p KEY = laneFold p KEY') →
      exec (.init [KEY, NONCE]) s = exec (.init [KEY', NONCE]) s) ∧
    (KEY.length = 64 → exec (.init [KEY ++ KEY, NONCE]) s = exec (.init [List.replicate 128 0#8, NONCE]) s)

/-! ## DERIVE -/

/-- R66. With `MI = 0` every live word takes the exclusive-or of what it held, its word of `S` and its word of `K`, the pad
slots and `S` stay, and `MI` becomes 1; with `MI = 1` nothing changes. -/
def Obligations.DeriveFillsTheLiveWordsOnce : Prop :=
  ∀ (cfg : Config) (c : Context),
    (c.MI = true → derive cfg c = c) ∧
    (c.MI = false →
      (∀ r x : Fin 4, x ≠ 3 → getM (derive cfg c).M r x =
        getM c.M r x ^^^ c.S[Fin.ofNat 16 (r.val * 7 + x.val * 11)] ^^^ cfg.K[Fin.ofNat 24 (r.val * 7 + x.val * 11)]) ∧
      (∀ r : Fin 4, getM (derive cfg c).M r 3 = getM c.M r 3) ∧
      (derive cfg c).S = c.S ∧ (derive cfg c).MI = true)

/-! ## QREF and MIX -/

/-- R75. The twelve quarter references of outer index `i`, for every `i`, and their period 16. -/
def Obligations.QuarterReferencesAreTheFormulas : Prop :=
  ∀ (i : Nat) (q : Fin 4),
    (colidx i q).val = 4 * (i % 4) + q.val ∧
    (rowidx i q).val = 4 * q.val + i % 4 ∧
    (diaidx i q).val = (i + 5 * q.val) % 16 ∧
    colidx (i + 16) q = colidx i q ∧ rowidx (i + 16) q = rowidx i q ∧ diaidx (i + 16) q = diaidx i q

/-- R76 (the coincidence is derived by the spec). In every outer iteration a column and a row reference are the same
location, `S[5 * (i mod 4)]`, and they are so for no other pair of quarters. -/
def Obligations.ColumnAndRowReferenceCoincide : Prop :=
  ∀ (i : Nat) (q q' : Fin 4),
    (colidx i q = rowidx i q' ↔ q.val = i % 4 ∧ q'.val = i % 4) ∧
    (q.val = i % 4 → (colidx i q).val = 5 * (i % 4))

/-- R77, on any four locations, equal ones included (R79). The sixteen statements run one after another on one array, each
reading what the ones before it wrote: `f0` is the array before, `f1` to `f16` the array after each statement. -/
def Obligations.MixRunsSixteenStatementsOnLocations : Prop :=
  ∀ (a b c d : Fin 16) (p1 p2 : Word) (S : StateArray),
    let f0 : Fin 16 → Word := fun x => S[x]
    let f1 := Function.update f0 a (f0 a + p2 + f0 b)
    let f2 := Function.update f1 b (f1 b ^^^ f1 a)
    let f3 := Function.update f2 b (rotl (f2 b + p1) 5)
    let f4 := Function.update f3 a (rotl (f3 a + p1) 11)
    let f5 := Function.update f4 c (f4 c + p1 + f4 d)
    let f6 := Function.update f5 d (f5 d ^^^ f5 c)
    let f7 := Function.update f6 d (rotl (f6 d + p2) 12)
    let f8 := Function.update f7 c (rotl (f7 c + p2) 15)
    let f9 := Function.update f8 a (f8 a + p1 + f8 b)
    let f10 := Function.update f9 b (f9 b ^^^ f9 a)
    let f11 := Function.update f10 b (rotl (f10 b + p2) 14)
    let f12 := Function.update f11 a (rotl (f11 a + p2) 25)
    let f13 := Function.update f12 c (f12 c + p2 + f12 d)
    let f14 := Function.update f13 d (f13 d ^^^ f13 c)
    let f15 := Function.update f14 d (rotl (f14 c + p1) 7)
    let f16 := Function.update f15 c (rotl (f15 c + p1) 30)
    ∀ x : Fin 16, (mix a b c d p1 p2 S)[x] = f16 x

/-- R77 (d), R78 (inferences the spec marks as derived), on four distinct locations. The sixteen statements give these four words; no other word of `S` changes. -/
def Obligations.MixOnDistinctLocations : Prop :=
  ∀ (ia ib ic id : Fin 16) (p1 p2 : Word) (S : StateArray),
    ia ≠ ib → ia ≠ ic → ia ≠ id → ib ≠ ic → ib ≠ id → ic ≠ id →
    let a1 := S[ia] + p2 + S[ib]
    let b2 := S[ib] ^^^ a1
    let b3 := rotl (b2 + p1) 5
    let a4 := rotl (a1 + p1) 11
    let c5 := S[ic] + p1 + S[id]
    let d6 := S[id] ^^^ c5
    let d7 := rotl (d6 + p2) 12
    let c8 := rotl (c5 + p2) 15
    let a9 := a4 + p1 + b3
    let b10 := b3 ^^^ a9
    let b11 := rotl (b10 + p2) 14
    let a12 := rotl (a9 + p2) 25
    let c13 := c8 + p2 + d7
    let d15 := rotl (c13 + p1) 7
    let c16 := rotl (c13 + p1) 30
    (mix ia ib ic id p1 p2 S)[ia] = a12 ∧ (mix ia ib ic id p1 p2 S)[ib] = b11 ∧
    (mix ia ib ic id p1 p2 S)[ic] = c16 ∧ (mix ia ib ic id p1 p2 S)[id] = d15 ∧
    ∀ x : Fin 16, x ≠ ia → x ≠ ib → x ≠ ic → x ≠ id → (mix ia ib ic id p1 p2 S)[x] = S[x]

/-- The frame of R77, wherever the four locations coincide: `MIX` writes no word but the four it is given. -/
def Obligations.MixWritesOnlyItsLocations : Prop :=
  ∀ (ia ib ic id x : Fin 16) (p1 p2 : Word) (S : StateArray),
    x ≠ ia → x ≠ ib → x ≠ ic → x ≠ id → (mix ia ib ic id p1 p2 S)[x] = S[x]

/-- R78, its consequences (which the spec derives). The last line rotates the updated `c` for `d`: whenever the locations of `c` and `d` differ, `c` ends as `d` rotated
by 23 more, and `d` ends as the value statement 13 gave `c`, plus `p1`, rotated by 7. -/
def Obligations.LastLineRotatesC : Prop :=
  ∀ (ia ib ic id : Fin 16) (p1 p2 : Word) (S : StateArray), ic ≠ id →
    (mix ia ib ic id p1 p2 S)[ic] = rotl (mix ia ib ic id p1 p2 S)[id] 23 ∧
    ∃ S' : StateArray, S' = mix3 ia ib p1 p2 (mix2 ic id p1 p2 (mix1 ia ib p1 p2 S)) ∧
      (mix ia ib ic id p1 p2 S)[id] = rotl (S'[ic] + p2 + S'[id] + p1) 7

/-- R79, its enumeration (which the spec derives), for every outer index: which of the four locations of each call coincide,
and that no others do. For `i` below 4 none do. -/
def Obligations.WhichLocationsOfACallCoincide : Prop :=
  ∀ i : Nat,
    (colidx i 0 ≠ rowidx i 3 ∧ colidx i 0 ≠ rowidx i 1 ∧ rowidx i 3 ≠ diaidx i 2 ∧ rowidx i 3 ≠ rowidx i 1 ∧
      diaidx i 2 ≠ rowidx i 1 ∧ (colidx i 0 = diaidx i 2 ↔ i % 16 = 14)) ∧
    (colidx i 1 ≠ rowidx i 0 ∧ colidx i 1 ≠ rowidx i 2 ∧ rowidx i 0 ≠ diaidx i 3 ∧ rowidx i 0 ≠ rowidx i 2 ∧
      diaidx i 3 ≠ rowidx i 2 ∧ (colidx i 1 = diaidx i 3 ↔ i % 16 = 10)) ∧
    (colidx i 2 ≠ rowidx i 1 ∧ colidx i 2 ≠ rowidx i 3 ∧ rowidx i 1 ≠ rowidx i 3 ∧
      (rowidx i 1 = diaidx i 0 ↔ 4 ≤ i % 16 ∧ i % 16 ≤ 7) ∧ (colidx i 2 = diaidx i 0 ↔ i % 16 = 10) ∧
      (diaidx i 0 = rowidx i 3 ↔ 12 ≤ i % 16)) ∧
    (colidx i 3 ≠ rowidx i 2 ∧ colidx i 3 ≠ rowidx i 0 ∧ rowidx i 2 ≠ diaidx i 1 ∧ rowidx i 2 ≠ rowidx i 0 ∧
      diaidx i 1 ≠ rowidx i 0 ∧ (colidx i 3 = diaidx i 1 ↔ i % 16 = 6))

/-- R79, its worked cases, at whatever locations: `ib = ic`, `ia = ic` and `ic = id`, with the words and parameters the rule
names. -/
def Obligations.MixOnCoincidingLocations : Prop :=
  ∀ (x y z : Fin 16) (S : StateArray), x ≠ y → x ≠ z → y ≠ z →
    (S[x] = 0x11111111#32 → S[y] = 0x22222222#32 → S[z] = 0x44444444#32 →
      (mix x y y z 0x55555555#32 0x66666666#32 S)[x] = 0x86886788#32 ∧
      (mix x y y z 0x55555555#32 0x66666666#32 S)[y] = 0x8BBB27BB#32 ∧
      (mix x y y z 0x55555555#32 0x66666666#32 S)[z] = 0x764F7717#32) ∧
    (S[x] = 0x11111111#32 → S[y] = 0x22222222#32 → S[z] = 0x44444444#32 →
      (mix x y x z 0x55555555#32 0x66666666#32 S)[x] = 0x1A2AA66A#32 ∧
      (mix x y x z 0x55555555#32 0x66666666#32 S)[y] = 0xBDDD9DDD#32 ∧
      (mix x y x z 0x55555555#32 0x66666666#32 S)[z] = 0x554CD434#32) ∧
    (S[x] = 0x11111111#32 → S[y] = 0x22222222#32 → S[z] = 0x33333333#32 →
      (mix x y z z 0x55555555#32 0x66666666#32 S)[x] = 0x68AAAAAA#32 ∧
      (mix x y z z 0x55555555#32 0x66666666#32 S)[y] = 0xCCCC8CCC#32 ∧
      (mix x y z z 0x55555555#32 0x66666666#32 S)[z] = 0xFFFFFFFF#32)

/-! ## ROUND, COPYBACK, DIFFUSE -/

/-- R80. A round is the four calls of `MIX`, in order, with these locations and parameters. -/
def Obligations.RoundRunsTheFourCalls : Prop :=
  ∀ (i : Nat) (M : MatrixState) (S : StateArray),
    let S1 := mix (colidx i 0) (rowidx i 3) (diaidx i 2) (rowidx i 1) M[3][0] M[2][2] S
    let S2 := mix (colidx i 1) (rowidx i 0) (diaidx i 3) (rowidx i 2) M[0][0] M[3][2] S1
    let S3 := mix (colidx i 2) (rowidx i 1) (diaidx i 0) (rowidx i 3) M[1][0] M[0][2] S2
    let S4 := mix (colidx i 3) (rowidx i 2) (diaidx i 1) (rowidx i 0) M[2][0] M[1][2] S3
    Machine.round i M S = S4

/-- R82. The copy-back overwrites the live words of row `q` with the three references of quarter `q` and leaves the pad slots;
so a column and a row word always end equal. -/
def Obligations.CopybackOverwritesLiveWords : Prop :=
  ∀ (i : Nat) (S : StateArray) (M : MatrixState) (q : Fin 4),
    getM (copyback i S M) q 0 = S[colidx i q] ∧
    getM (copyback i S M) q 1 = S[rowidx i q] ∧
    getM (copyback i S M) q 2 = S[diaidx i q] ∧
    getM (copyback i S M) q 3 = getM M q 3 ∧
    (q.val = i % 4 → getM (copyback i S M) q 0 = getM (copyback i S M) q 1)

/-- R81 and R83. An outer iteration is three rounds on one `M`, then the copy-back; a pass is the iterations
`i = 0, …, 4 * MULT - 1` in order. -/
def Obligations.PassRunsTheOuterIterations : Prop :=
  (∀ (i : Nat) (c : Context), outer i c = { c with
    S := Machine.round i c.M (Machine.round i c.M (Machine.round i c.M c.S))
    M := copyback i (Machine.round i c.M (Machine.round i c.M (Machine.round i c.M c.S))) c.M }) ∧
  (∀ (cfg : Config) (c : Context), diffuse cfg c = (List.range (4 * cfg.MULT)).foldl (fun c i => outer i c) c)

/-- R85 (an inference the spec marks as derived). After a pass the live words of `M` are these words of `S`, for every
`MULT` at least 1. -/
def Obligations.PassLeavesWordsOfStateInMatrix : Prop :=
  ∀ (cfg : Config) (c : Context) (q : Fin 4), 1 ≤ cfg.MULT →
    getM (diffuse cfg c).M q 0 = (diffuse cfg c).S[Fin.ofNat 16 (12 + q.val)] ∧
    getM (diffuse cfg c).M q 1 = (diffuse cfg c).S[Fin.ofNat 16 (4 * q.val + 3)] ∧
    getM (diffuse cfg c).M q 2 = (diffuse cfg c).S[Fin.ofNat 16 (4 * cfg.MULT - 1 + 5 * q.val)] ∧
    getM (diffuse cfg c).M q 3 = getM c.M q 3 ∧
    (diffuse cfg c).MI = c.MI

/-! ## CTRADD, KSVIEW, PROC -/

/-- R95. `CTRADD` adds the block counter modulo 2^32 to `S[15]` and changes nothing else. -/
def Obligations.CounterStepChangesOnlyTheLastWord : Prop :=
  ∀ (BC : Nat) (c : Context),
    (ctrAdd BC c).S[15] = c.S[15] + BitVec.ofNat 32 (BC % 2 ^ 32) ∧
    (∀ i : Fin 16, i.val ≠ 15 → (ctrAdd BC c).S[i] = c.S[i]) ∧
    (ctrAdd BC c).M = c.M ∧ (ctrAdd BC c).MI = c.MI

/-- R96. The padded view is 64 bytes, byte `16r + 4x + k` being byte `k` of `M[r][x]`; under little-endian lanes that is
`bits[8k+7 : 8k]`. -/
def Obligations.KeystreamViewIsRowMajor : Prop :=
  ∀ (cfg : Config) (M : MatrixState), cfg.KSVIEW = .padded →
    (ksView cfg M).length = 64 ∧
    ∀ r x k : Fin 4,
      (ksView cfg M)[16 * r.val + 4 * x.val + k.val]? = some (byteOf cfg.BYTE_ORDER k (getM M r x)) ∧
      (cfg.BYTE_ORDER = .little →
        (ksView cfg M)[16 * r.val + 4 * x.val + k.val]? = some ((getM M r x).extractLsb' (8 * k.val) 8))

/-- R113, with R97 to R99. A valid `PROC` of `L` bytes steps the counter with 1, 2, …, `ceil(L / 64)`, runs a pass after each,
and answers `OK` with `L` bytes: byte `j` is data byte `j` exclusive-or byte `j mod 64` of the view of `M` after pass
`j div 64 + 1`. `MI`, the configuration and the moves to come are unchanged. -/
def Obligations.ProcXorsOneViewPerBlock : Prop :=
  ∀ (s : State) (DATA : Frame), DATA ≠ [] →
    ∃ OUT : Frame,
      exec (.proc [DATA]) s = .next { s with
        ctx := s.ctx.afterBlocks s.cfg (blockCount DATA.length)
        responses := s.responses ++ [Response.okWith OUT] } ∧
      (s.ctx.afterBlocks s.cfg (blockCount DATA.length)).MI = s.ctx.MI ∧
      OUT.length = DATA.length ∧
      ∀ j : Nat, j < DATA.length → OUT[j]? = some (DATA.getD j 0#8 ^^^ s.ctx.keystreamByte s.cfg j)

/-- R114. `PROC` is invalid exactly when the data is absent, the data is empty or there is more than one frame; then nothing
changes and no byte is output. Every other `PROC` is answered `OK` with an output frame. -/
def Obligations.ProcInvalidExactlyWhen : Prop :=
  ∀ (s : State) (frames : List Frame),
    ((frames[0]? = none ∨ frames[0]? = some [] ∨ 1 < frames.length) → exec (.proc frames) s = .next s.noOp) ∧
    (¬ (frames[0]? = none ∨ frames[0]? = some [] ∨ 1 < frames.length) →
      ∃ t OUT, exec (.proc frames) s = .next t ∧ t.responses = s.responses ++ [Response.okWith OUT])

/-- R99. A `PROC` of `64 * n` bytes runs `n` passes, one of `64 * n + r` bytes, `0 < r < 64`, runs `n + 1`, a counter step
with 1, 2, … before each; a `PROC` that fails validation runs neither. -/
def Obligations.PassesPerProc : Prop :=
  ∀ (s : State) (DATA : Frame) (n r : Nat),
    (1 ≤ n → DATA.length = 64 * n →
      ∃ t, exec (.proc [DATA]) s = .next t ∧ t.ctx = s.ctx.afterBlocks s.cfg n) ∧
    (0 < r → r < 64 → DATA.length = 64 * n + r →
      ∃ t, exec (.proc [DATA]) s = .next t ∧ t.ctx = s.ctx.afterBlocks s.cfg (n + 1)) ∧
    (∀ frames, procCauses frames ≠ [] → ∃ t, exec (.proc frames) s = .next t ∧ t.ctx = s.ctx)

/-- R113 and R116. `PROC` reads no constant of `K`: two engines that differ in `K` alone give the same answer and hold the same
context. It neither reads nor writes `MI`: two that differ in `MI` alone give the same answer and hold the same `S` and `M`,
and each keeps its `MI`. -/
def Obligations.ProcReadsNoConstantAndKeepsMI : Prop :=
  ∀ (s : State) (K : Vector Word 24) (MI' : Bool) (DATA : Frame), DATA ≠ [] →
    ∃ t tK tMI, exec (.proc [DATA]) s = .next t ∧
      exec (.proc [DATA]) { s with cfg := { s.cfg with K := K } } = .next tK ∧
      exec (.proc [DATA]) { s with ctx := { s.ctx with MI := MI' } } = .next tMI ∧
      tK.ctx = t.ctx ∧ tK.responses = t.responses ∧
      tMI.ctx.S = t.ctx.S ∧ tMI.ctx.M = t.ctx.M ∧ tMI.responses = t.responses ∧
      t.ctx.MI = s.ctx.MI ∧ tMI.ctx.MI = MI'

/-- R101 (an inference the spec marks as derived, resting on decision D7: log 6, log 17). On an engine with the padded view
whose pad slots are zero, the data bytes at positions 12 to 15 of every 16 pass to the output unchanged. -/
def Obligations.PadPositionsPassDataThrough : Prop :=
  ∀ (s : State) (DATA : Frame), s.Inv → s.cfg.KSVIEW = .padded → DATA ≠ [] →
    ∃ t OUT, exec (.proc [DATA]) s = .next t ∧ t.responses = s.responses ++ [Response.okWith OUT] ∧
      ∀ j : Nat, j < DATA.length → 12 ≤ j % 16 → OUT[j]? = DATA[j]?

/-- R100 (c) (an inference the spec marks as derived). The first block of a `PROC` begun on a given context has the same
keystream however long the command is, for as many bytes as the shorter command has. -/
def Obligations.FirstBlockAgreesInEveryCutting : Prop :=
  ∀ (s : State) (DATA DATA' : Frame), DATA ≠ [] → DATA' ≠ [] →
    ∃ t t' OUT OUT', exec (.proc [DATA]) s = .next t ∧ exec (.proc [DATA']) s = .next t' ∧
      t.responses = s.responses ++ [Response.okWith OUT] ∧ t'.responses = s.responses ++ [Response.okWith OUT'] ∧
      ∀ j : Nat, j < 64 → j < DATA.length → j < DATA'.length →
        OUT.getD j 0#8 ^^^ DATA.getD j 0#8 = OUT'.getD j 0#8 ^^^ DATA'.getD j 0#8

/-- R100 (a) (an inference the spec marks as derived), resting on the padded view (D7; log 6, a DESIGN CHOICE). The keystream
depends on how the data is cut: there are an engine with the padded view and two blocks of data for which one `PROC` and two
do not give the same bytes. -/
def Obligations.CuttingCanChangeTheOutput : Prop :=
  ∃ (s : State) (D1 D2 OUT OUT1 OUT2 : Frame) (t t1 t2 : State), s.cfg.KSVIEW = .padded ∧
    D1.length = 64 ∧ D2 ≠ [] ∧
    exec (.proc [D1 ++ D2]) s = .next t ∧ t.responses = s.responses ++ [Response.okWith OUT] ∧
    exec (.proc [D1]) s = .next t1 ∧ t1.responses = s.responses ++ [Response.okWith OUT1] ∧
    exec (.proc [D2]) t1 = .next t2 ∧ t2.responses = t1.responses ++ [Response.okWith OUT2] ∧
    OUT ≠ OUT1 ++ OUT2

/-! ## Whole engines: determinism and round trip -/

/-- R102 (its general form is derived by the spec). Two engines with one configuration and one context, given `PROC`s of the
same lengths in the same order, use the same keystream, byte by byte, in every one of them, and hold the same context
afterwards, whatever the data. -/
def Obligations.KeystreamDependsOnLengthsAlone : Prop :=
  ∀ (pieces pieces' : List Frame) (s s' : State) (rest rest' : List HostMove),
    s.cfg = s'.cfg → s.ctx = s'.ctx → pieces.map List.length = pieces'.map List.length →
    s.input = pieces.map (fun d => issue (.proc [d])) ++ rest →
    s'.input = pieces'.map (fun d => issue (.proc [d])) ++ rest' →
    ∃ (t t' : State) (outs outs' : List Frame),
      core.run pieces.length s = .next t ∧ core.run pieces'.length s' = .next t' ∧
      t.responses = s.responses ++ outs.map Response.forBytes ∧
      t'.responses = s'.responses ++ outs'.map Response.forBytes ∧
      outs.map List.length = pieces.map List.length ∧ outs'.map List.length = pieces'.map List.length ∧
      List.zipWith keystreamUsed pieces outs = List.zipWith keystreamUsed pieces' outs' ∧
      t.ctx = t'.ctx ∧ t.input = rest ∧ t'.input = rest'

/-- R103, with R146. A message processed piece by piece after `CLEAR` and `INIT`, and its output processed piece
by piece on any other engine of the same configuration after the same `CLEAR` and `INIT`, gives the message back. A piece of
length 0 is answered `EINVAL` on both sides and is recovered as the empty text it is. -/
def Obligations.RoundTripRecoversTheMessage : Prop :=
  ∀ (s : State) (KEY NONCE : Frame) (pieces : List Frame) (rest : List HostMove),
    KEY ≠ [] → NONCE.length = 12 → s.input = message KEY NONCE pieces ++ rest →
    ∃ (t : State) (outs : List Frame), core.run (pieces.length + 2) s = .next t ∧
      t.responses = s.responses ++ [Response.okNone, Response.okNone] ++ outs.map Response.forBytes ∧
      outs.map List.length = pieces.map List.length ∧
      ∀ (s' : State) (rest' : List HostMove), s'.cfg = s.cfg → s'.input = message KEY NONCE outs ++ rest' →
        ∃ t' : State, core.run (outs.length + 2) s' = .next t' ∧
          t'.responses = s'.responses ++ [Response.okNone, Response.okNone] ++ pieces.map Response.forBytes

/-! ## The host interface, the one exception, and invariants -/

/-- R49. Every command, of any header and any frames, ends with exactly one response, of one byte, 0x00 or 0x01. `OK` means
that the command was valid, `EINVAL` that it was not and that nothing changed; an output frame comes with `OK` to a `PROC` and
with nothing else. -/
def Obligations.EveryCommandGetsOneResponse : Prop :=
  (ResponseCode.ok.byte = 0x00#8 ∧ ResponseCode.einval.byte = 0x01#8) ∧
  ∀ (s : State) (c : Command) (rest : List HostMove), s.input = .command c :: rest →
    ∃ t r, step s = .next t ∧ t.responses = s.responses ++ [r] ∧ t.input = rest ∧
      (r.code = .ok ↔ ∃ i, decode c = .instr i ∧ causes i = []) ∧
      (r.out.isSome ↔ c.header = 0x02#8 ∧ r.code = .ok) ∧
      (r.code = .einval → t.ctx = s.ctx ∧ t.cfg = s.cfg)

/-- R127, R128. A command that meets any cause of `InvalidArgument`, or whose opcode is reserved, is answered `EINVAL` without
an output frame and changes neither the context nor the configuration; every other command is answered `OK`. -/
def Obligations.InvalidArgumentIsANoOp : Prop :=
  ∀ (s : State) (c : Command) (rest : List HostMove), s.input = .command c :: rest →
    ((∃ i, decode c = .instr i ∧ causes i ≠ []) ∨ (∃ op, decode c = .reservedOpcode op) →
      step s = .next { s with input := rest, responses := s.responses ++ [Response.invalid] }) ∧
    (∀ i, decode c = .instr i → causes i = [] →
      ∃ t r, step s = .next t ∧ t.responses = s.responses ++ [r] ∧ r.code = .ok)

/-- R50. A command with a reserved opcode, 0x03 to 0xFF, whatever frames follow it, is answered `EINVAL` and changes nothing
else. -/
def Obligations.ReservedOpcodeIsEinval : Prop :=
  ∀ (s : State) (c : Command) (rest : List HostMove), s.input = .command c :: rest → 3 ≤ c.header.toNat →
    step s = .next { s with input := rest, responses := s.responses ++ [Response.invalid] }

/-- R125. No operation can fail in any other way: every step of every state answers a next state. -/
def Obligations.EveryStepAnswersANextState : Prop :=
  ∀ s : State, ∃ t, step s = .next t ∧
    (t.responses = s.responses ∨ ∃ r, t.responses = s.responses ++ [r]) ∧
    (t = s ∨ ∃ m, s.input = m :: t.input)

/-- R17, R18 and R10. No step writes the configuration: not `K`, not `MULT`, not the rest. -/
def Obligations.NoStepWritesTheConfiguration : Prop :=
  ∀ s : State, ∃ t, step s = .next t ∧ t.cfg = s.cfg

/-- R14 and R15. Among the commands `MI` goes from 0 to 1 only by a valid `INIT`, which always leaves it 1, and from 1 to 0
only by `CLEAR` without a frame. Among all steps it is the same, but that a reset pulse lowers it too; `CLEAR` and the pulse
always leave it 0. The status is active exactly when `MI = 1` and uninitialized exactly when `MI = 0`. -/
def Obligations.OnlyInitRaisesMIAndOnlyClearOrResetLowersIt : Prop :=
  (∀ (i : Instr) (s : State), ∃ t, exec i s = .next t ∧
    (s.ctx.MI = false → t.ctx.MI = true → ∃ frames, i = .init frames ∧ initCauses frames = []) ∧
    (s.ctx.MI = true → t.ctx.MI = false → i = .clear []) ∧
    (∀ frames, i = .init frames → initCauses frames = [] → t.ctx.MI = true)) ∧
  (∀ s : State, ∃ t, step s = .next t ∧
    (s.ctx.MI = false → t.ctx.MI = true →
      ∃ frames rest, s.input = issue (.init frames) :: rest ∧ initCauses frames = []) ∧
    (s.ctx.MI = true → t.ctx.MI = false →
      ∃ rest, s.input = issue (.clear []) :: rest ∨ s.input = .reset :: rest) ∧
    (∀ rest, s.input = .reset :: rest ∨ s.input = issue (.clear []) :: rest → t.ctx.MI = false) ∧
    (∀ frames rest, s.input = issue (.init frames) :: rest → initCauses frames = [] → t.ctx.MI = true) ∧
    (t.ctx.status = .active ↔ t.ctx.MI = true) ∧ (t.ctx.status = .uninitialized ↔ t.ctx.MI = false))

/-- R13. No `INIT` and no `PROC`, valid or not, on any context, changes a pad slot. -/
def Obligations.InitAndProcKeepThePadSlots : Prop :=
  ∀ (s : State) (frames : List Frame) (r : Fin 4),
    (∃ t, exec (.init frames) s = .next t ∧ getM t.ctx.M r 3 = getM s.ctx.M r 3) ∧
    (∃ t, exec (.proc frames) s = .next t ∧ getM t.ctx.M r 3 = getM s.ctx.M r 3)

/-- The invariant, R13 and R18: every step keeps the pad slots zero and the multiplier at least 1. -/
def Obligations.EveryStepKeepsTheInvariant : Prop :=
  ∀ s : State, s.Inv → ∃ t, step s = .next t ∧ t.Inv

/-- The invariant holds after reset (R13, R22; `MULT` is the spec's default 1, log 3). -/
def Obligations.ResetMeetsTheInvariant : Prop := State.reset.Inv

/-- R140. With no command to take the engine waits: nothing changes. -/
def Obligations.WaitingChangesNothing : Prop :=
  ∀ s : State, s.input = [] → step s = .next s

/-! ## Encoding -/

/-- R9, R47. When the header of the host's next command decodes to an instruction, the step is that instruction's meaning on
the state with the command taken. -/
def Obligations.StepRunsTheDecodedCommand : Prop :=
  ∀ (s : State) (c : Command) (rest : List HostMove) (i : Instr),
    s.input = .command c :: rest → decode c = .instr i → step s = exec i { s with input := rest }

/-- R47. The three opcodes, written out, with frames of the shapes the table gives. -/
def Obligations.OpcodesDecodeToTheirCommands : Prop :=
  decode { header := 0b00000000#8, frames := [] } = .instr (.clear []) ∧
  decode { header := 0b00000001#8, frames := [[0x01#8], List.replicate 12 0x00#8] } =
    .instr (.init [[0x01#8], List.replicate 12 0x00#8]) ∧
  decode { header := 0b00000010#8, frames := [[0xAB#8, 0xCD#8]] } = .instr (.proc [[0xAB#8, 0xCD#8]]) ∧
  decode { header := 0b00000011#8, frames := [] } = .reservedOpcode 0x03#8

/-- R45 to R47, R52. Decoding an encoded instruction gives it back, frames and all, and a command that decodes to an
instruction is that instruction's encoding: no two commands are one instruction, and no instruction is two commands. -/
def Obligations.DecodeAndEncodeAgree : Prop :=
  (∀ i : Instr, decode (encode i) = .instr i) ∧
  (∀ (c : Command) (i : Instr), decode c = .instr i → encode i = c) ∧
  (∀ c : Command, (∃ op, decode c = .reservedOpcode op) ↔ 3 ≤ c.header.toNat)

/-- R54. `ENC` and `DEC` are `PROC`; `NEWCTX` is `CLEAR` then `INIT`. An absent operand `-` and the frames after it are not
supplied (R53). -/
def Obligations.PseudoInstructionsExpand : Prop :=
  ∀ (X Y : Frame) (y : Asm.Operand),
    Asm.enc (.bytes X) = [.proc [X]] ∧ Asm.dec (.bytes X) = [.proc [X]] ∧
    Asm.newctx (.bytes X) (.bytes Y) = [.clear [], .init [X, Y]] ∧
    Asm.enc .absent = [.proc []] ∧ Asm.dec .absent = [.proc []] ∧
    Asm.newctx (.bytes X) .absent = [.clear [], .init [X]] ∧ Asm.newctx .absent y = [.clear [], .init []]

/-! ## Words -/

/-- R6. Bit `k` of a word becomes bit `(k + n) mod 32` of its left rotation by `n`. -/
def Obligations.RotationMovesEveryBit : Prop :=
  ∀ (x : Word) (n k : Nat), 1 ≤ n → n ≤ 31 → k < 32 → (rotl x n).getLsbD ((k + n) % 32) = x.getLsbD k

/-- R31. Byte `k` of a word is `bits[8k+7 : 8k]` under little and `bits[31-8k : 24-8k]` under big; exclusive-oring a byte into
a lane changes that lane alone. -/
def Obligations.ByteLanesOfAWord : Prop :=
  ∀ (order : ByteOrder) (k k' : Fin 4) (b : Byte) (w : Word),
    byteOf .little k w = w.extractLsb' (8 * k.val) 8 ∧
    byteOf .big k w = w.extractLsb' (24 - 8 * k.val) 8 ∧
    byteOf order k (xorLane order k b w) = byteOf order k w ^^^ b ∧
    (k' ≠ k → byteOf order k' (xorLane order k b w) = byteOf order k' w)
end

