-- ==== Sys2Proof/Laws/State.lean ====
section
/-! SUPPORT. One lemma per field and update, each true by its definition, so that no proof unfolds a record update. -/

namespace Sys2Proof.Machine

variable (s : State) (c : Context) (cfg : Config) (r : Response) (out : Option Frame) (F : Frame) (n : Nat) (cmd : Command)

/-! ## The answer and the exception -/

@[simp] theorem respond_cfg : (respond r s).cfg = s.cfg := rfl
@[simp] theorem respond_ctx : (respond r s).ctx = s.ctx := rfl
@[simp] theorem respond_input : (respond r s).input = s.input := rfl
@[simp] theorem respond_responses : (respond r s).responses = s.responses ++ [r] := rfl

@[simp] theorem respondOk_cfg : (respondOk out s).cfg = s.cfg := rfl
@[simp] theorem respondOk_ctx : (respondOk out s).ctx = s.ctx := rfl
@[simp] theorem respondOk_input : (respondOk out s).input = s.input := rfl
@[simp] theorem respondOk_responses : (respondOk out s).responses = s.responses ++ [{ code := .ok, out := out }] := rfl

@[simp] theorem raiseInvalidArgument_cfg : (raiseInvalidArgument s).cfg = s.cfg := rfl
@[simp] theorem raiseInvalidArgument_ctx : (raiseInvalidArgument s).ctx = s.ctx := rfl
@[simp] theorem raiseInvalidArgument_input : (raiseInvalidArgument s).input = s.input := rfl
@[simp] theorem raiseInvalidArgument_responses :
    (raiseInvalidArgument s).responses = s.responses ++ [{ code := .einval, out := none }] := rfl

/-! ## Reset and the host's moves -/

@[simp] theorem zeroContext_cfg : (zeroContext s).cfg = s.cfg := rfl
@[simp] theorem zeroContext_ctx : (zeroContext s).ctx = Context.zero := rfl
@[simp] theorem zeroContext_input : (zeroContext s).input = s.input := rfl
@[simp] theorem zeroContext_responses : (zeroContext s).responses = s.responses := rfl

@[simp] theorem resetEngine_cfg : (resetEngine s).cfg = s.cfg := rfl
@[simp] theorem resetEngine_ctx : (resetEngine s).ctx = Context.zero := rfl
@[simp] theorem resetEngine_input : (resetEngine s).input = s.input := rfl
@[simp] theorem resetEngine_responses : (resetEngine s).responses = s.responses := rfl

@[simp] theorem issueNext_cfg : (issueNext cmd s).cfg = s.cfg := rfl
@[simp] theorem issueNext_ctx : (issueNext cmd s).ctx = s.ctx := rfl
@[simp] theorem issueNext_input : (issueNext cmd s).input = .command cmd :: s.input := rfl
@[simp] theorem issueNext_responses : (issueNext cmd s).responses = s.responses := rfl

/-! ## The micro-operations' frames on the context -/

@[simp] theorem raiseMI_S : (raiseMI c).S = c.S := rfl
@[simp] theorem raiseMI_M : (raiseMI c).M = c.M := rfl
@[simp] theorem raiseMI_MI : (raiseMI c).MI = true := rfl

@[simp] theorem seed_S : (seed cfg n c).S = seedWords cfg n := rfl
@[simp] theorem seed_M : (seed cfg n c).M = c.M := rfl
@[simp] theorem seed_MI : (seed cfg n c).MI = c.MI := rfl

@[simp] theorem absorb_S : (absorb cfg F c).S = absorbFrom cfg.BYTE_ORDER 0 F c.S := rfl
@[simp] theorem absorb_M : (absorb cfg F c).M = c.M := rfl
@[simp] theorem absorb_MI : (absorb cfg F c).MI = c.MI := rfl

@[simp] theorem ctrAdd_S : (ctrAdd n c).S = c.S.set 15 (c.S[15] + BitVec.ofNat 32 n) := rfl
@[simp] theorem ctrAdd_M : (ctrAdd n c).M = c.M := rfl
@[simp] theorem ctrAdd_MI : (ctrAdd n c).MI = c.MI := rfl

@[simp] theorem outer_S : (outer n c).S = rounds n c.M Lit.rounds c.S := rfl
@[simp] theorem outer_M : (outer n c).M = copyback n (rounds n c.M Lit.rounds c.S) c.M := rfl
@[simp] theorem outer_MI : (outer n c).MI = c.MI := by cases c; rfl

@[simp] theorem zero_MI : Context.zero.MI = false := rfl

end Sys2Proof.Machine
end

