-- ==== Sys2Proof/Laws/Ops.lean ====
section
/-! SUPPORT. What the accessors of the word stores do: a read after a write of the same place gives what was written, and a
write leaves every other place alone. -/

namespace Sys2Proof.Machine

/-- Reading `M` after a write to `M`. -/
theorem getM_setM (M : MatrixState) (r x r' x' : Fin 4) (v : Word) :
    getM (setM M r x v) r' x' = if r' = r ∧ x' = x then v else getM M r' x' := by
  simp only [getM, setM, Fin.getElem_fin, Vector.getElem_set, Fin.ext_iff]
  by_cases hr : r.val = r'.val <;> by_cases hx : x.val = x'.val <;> simp [hr, hx, eq_comm]

@[simp] theorem getM_setM_same (M : MatrixState) (r x : Fin 4) (v : Word) : getM (setM M r x v) r x = v := by
  simp [getM_setM]

/-- Reading `S` after a write to `S`. -/
theorem getS_set (S : StateArray) (i j : Fin 16) (v : Word) : (S.set i v)[j] = if j = i then v else S[j] := by
  simp only [Fin.getElem_fin, Vector.getElem_set, Fin.ext_iff, eq_comm]

/-- Two matrix states with the same words are equal. -/
theorem matrix_ext (M M' : MatrixState) (h : ∀ r x : Fin 4, getM M r x = getM M' r x) : M = M' := by
  apply Vector.ext
  intro i hi
  apply Vector.ext
  intro j hj
  exact h ⟨i, hi⟩ ⟨j, hj⟩

/-- Two state arrays with the same words are equal. -/
theorem array_ext (S S' : StateArray) (h : ∀ i : Fin 16, S[i] = S'[i]) : S = S' := by
  apply Vector.ext
  intro i hi
  exact h ⟨i, hi⟩

/-- The words of the zero-filled context. -/
theorem zero_S (i : Fin 16) : Context.zero.S[i] = 0#32 := by
  simp [Context.zero]

theorem zero_M (r x : Fin 4) : getM Context.zero.M r x = 0#32 := by
  simp [Context.zero, getM]

/-- Bit `i` of byte `k` of a word. -/
theorem byteOf_bit (order : ByteOrder) (k : Fin 4) (w : Word) (i : Nat) (hi : i < 8) :
    (byteOf order k w).getLsbD i = w.getLsbD (laneShift order k + i) := by
  simp [byteOf, hi]

/-- Bit `i` of a word with a byte exclusive-ored into lane `k`. -/
theorem xorLane_bit (order : ByteOrder) (k : Fin 4) (b : Byte) (w : Word) (i : Nat) (hi : i < 32) :
    (xorLane order k b w).getLsbD i =
      (w.getLsbD i ^^ (decide (laneShift order k ≤ i) && b.getLsbD (i - laneShift order k))) := by
  by_cases hle : laneShift order k ≤ i
  · simp [xorLane, hi, hle, Nat.not_lt.2 hle]
  · simp [xorLane, hle, Nat.not_le.1 hle]

/-- The lanes of two byte numbers do not meet. -/
theorem laneShift_apart (order : ByteOrder) (k k' : Fin 4) (h : k' ≠ k) :
    laneShift order k + 8 ≤ laneShift order k' ∨ laneShift order k' + 8 ≤ laneShift order k := by
  have h' : k'.val ≠ k.val := fun e => h (Fin.ext e)
  cases order <;> simp only [laneShift] <;> omega

theorem laneShift_le (order : ByteOrder) (k : Fin 4) : laneShift order k ≤ 24 := by
  cases order <;> simp only [laneShift] <;> omega

/-- The table is read modulo 24. -/
theorem getK_mod (cfg : Config) (n : Nat) : getK cfg (n % 24) = getK cfg n := by
  have h : Fin.ofNat 24 (n % 24) = Fin.ofNat 24 n := Fin.ext (Nat.mod_mod n 24)
  simp only [getK, h]

/-- Every index of `S` that is a number below 16 is that number. -/
theorem sIdx_val (n : Nat) : (sIdx n).val = n % 16 := rfl

end Sys2Proof.Machine
end

