-- ==== Sys2Proof/Laws/Diffusion.lean ====
section
/-! SUPPORT. What a pass does to each part of the context: its last iteration, its pad slots, its flag. -/

namespace Sys2Proof.Machine

variable (i : Nat) (S : StateArray) (M : MatrixState) (c : Context) (cfg : Config)

/-- The mask of the column and row references is the remainder modulo 4. -/
theorem quarterMask_mod : i &&& Lit.quarterMask = i % 4 := Nat.and_two_pow_sub_one_eq_mod i 2

/-- A statement of `MIX` writes one word. -/
theorem mixAdd_get (x y j : Fin 16) (p : Word) : (mixAdd x p y S)[j] = if j = x then S[x] + p + S[y] else S[j] :=
  getS_set S x j _

theorem mixXor_get (x y j : Fin 16) : (mixXor x y S)[j] = if j = x then S[x] ^^^ S[y] else S[j] :=
  getS_set S x j _

theorem mixRot_get (x y j : Fin 16) (p : Word) (n : Nat) :
    (mixRot x y p n S)[j] = if j = x then rotl (S[y] + p) n else S[j] :=
  getS_set S x j _

/-- The copy-back of one quarter writes the live slots of one row. -/
theorem getM_copyRow (q r x : Fin 4) :
    getM (copyRow i S M q) r x =
      if r = q then
        if x = 0 then S[colidx i q] else if x = 1 then S[rowidx i q] else if x = 2 then S[diaidx i q] else getM M r x
      else getM M r x := by
  simp only [copyRow, getM_setM]
  by_cases hr : r = q
  · subst hr
    fin_cases x <;> simp
  · simp [hr]

/-- Each row of the copied-back matrix is the copy-back of that row alone. -/
theorem getM_copyback (r x : Fin 4) : getM (copyback i S M) r x = getM (copyRow i S M r) r x := by
  fin_cases r <;> simp [copyback, quads, getM_copyRow]

theorem copyback_pad (r : Fin 4) : getM (copyback i S M) r 3 = getM M r 3 := by
  simp [getM_copyback, getM_copyRow]

/-- The last of the outer iterations runs on what the others left. -/
theorem outerFrom_succ (n : Nat) : outerFrom i (n + 1) c = outer (i + n) (outerFrom i n c) := by
  induction n generalizing i c with
  | zero => rfl
  | succ n ih =>
    rw [outerFrom, ih (i + 1) (outer i c), outerFrom]
    congr 1
    omega

theorem outerFrom_MI (n : Nat) : (outerFrom i n c).MI = c.MI := by
  induction n with
  | zero => rfl
  | succ n ih => rw [outerFrom_succ, outer_MI, ih]

theorem outerFrom_pad (n : Nat) (r : Fin 4) : getM (outerFrom i n c).M r 3 = getM c.M r 3 := by
  induction n with
  | zero => rfl
  | succ n ih => rw [outerFrom_succ, outer_M, copyback_pad, ih]

@[simp] theorem diffuse_MI : (diffuse cfg c).MI = c.MI := outerFrom_MI 0 c _

@[simp] theorem diffuse_pad (r : Fin 4) : getM (diffuse cfg c).M r 3 = getM c.M r 3 := outerFrom_pad 0 c _ r

theorem outerFrom_withMI (n : Nat) (b : Bool) :
    outerFrom i n { c with MI := b } = { outerFrom i n c with MI := b } := by
  induction n with
  | zero => rfl
  | succ n ih => rw [outerFrom_succ, outerFrom_succ, ih]; rfl

/-- A pass neither reads nor writes the flag. -/
theorem diffuse_withMI (b : Bool) : diffuse cfg { c with MI := b } = { diffuse cfg c with MI := b } :=
  outerFrom_withMI 0 c _ b

/-- A pass depends on the configuration through `MULT` alone. -/
theorem diffuse_of_MULT (cfg' : Config) (h : cfg.MULT = cfg'.MULT) : diffuse cfg c = diffuse cfg' c := by
  simp only [diffuse, h]

end Sys2Proof.Machine
end

