-- ==== Sys2Proof/Laws/Keystream.lean ====
section
/-! SUPPORT. The loop of `PROC`, said once: where it stands after any number of turns, and where it ends. -/

namespace Sys2Proof.Machine

variable (cfg : Config) (DATA : Frame) (c : Context)

theorem paddedView_length (order : ByteOrder) (M : MatrixState) : (paddedView order M).length = 64 := by
  simp [paddedView, quads]

/-- Every keystream view has 64 bytes. -/
@[simp] theorem ksView_length (M : MatrixState) : (ksView cfg M).length = 64 := by
  unfold ksView
  split
  · exact paddedView_length _ _
  · simp

theorem afterBlocks_succ (n : Nat) : c.afterBlocks cfg (n + 1) = diffuse cfg (ctrAdd (n + 1) (c.afterBlocks cfg n)) := rfl

theorem afterBlocks_MI (n : Nat) : (c.afterBlocks cfg n).MI = c.MI := by
  induction n with
  | zero => rfl
  | succ n ih => rw [afterBlocks_succ, diffuse_MI, ctrAdd_MI, ih]

theorem afterBlocks_pad (n : Nat) (r : Fin 4) : getM (c.afterBlocks cfg n).M r 3 = getM c.M r 3 := by
  induction n with
  | zero => rfl
  | succ n ih => rw [afterBlocks_succ, diffuse_pad, ctrAdd_M, ih]

/-- Blocks neither read nor write the flag. -/
theorem afterBlocks_withMI (n : Nat) (b : Bool) :
    Context.afterBlocks cfg { c with MI := b } n = { c.afterBlocks cfg n with MI := b } := by
  induction n with
  | zero => rfl
  | succ n ih => rw [afterBlocks_succ, afterBlocks_succ, ih, ← diffuse_withMI]; rfl

/-- Data and its exclusive-or with the keystream show the keystream. -/
theorem keystreamUsed_xor (data ks : Frame) (h : data.length ≤ ks.length) :
    keystreamUsed data (List.zipWith (fun d k => d ^^^ k) data ks) = ks.take data.length := by
  induction data generalizing ks with
  | nil => simp [keystreamUsed]
  | cons d data ih =>
    cases ks with
    | nil => simp at h
    | cons k ks =>
      have := ih ks (by simpa using h)
      simp only [keystreamUsed] at this
      simp [keystreamUsed, this]

/-- The bytes of a block are the data's from its offset. -/
theorem xorBlk_get (M : MatrixState) (OFF n j : Nat) (hn : n ≤ 64) (hj : j < n) (hd : OFF + j < DATA.length) :
    (xorBlk cfg M DATA OFF n)[j]? = some (DATA.getD (OFF + j) 0#8 ^^^ (ksView cfg M).getD j 0#8) := by
  have hk : j < (ksView cfg M).length := by rw [ksView_length]; omega
  simp [xorBlk, dataBlock, List.getElem?_zipWith, List.getElem?_drop, hj, hd, List.getD, List.getElem?_eq_getElem hk]

theorem xorBlk_length (M : MatrixState) (OFF n : Nat) (hn : n ≤ 64) (hd : OFF + n ≤ DATA.length) :
    (xorBlk cfg M DATA OFF n).length = n := by
  simp [xorBlk, dataBlock]
  omega

/-- Where the loop stands after `k` turns. -/
structure LoopAt (k : Nat) (l : ProcLoop) : Prop where
  counter : l.BC = k
  offset : l.OFF = min (64 * k) DATA.length
  started : 64 * k < DATA.length + 64
  context : l.ctx = c.afterBlocks cfg k
  length : l.OUT.length = l.OFF
  bytes : ∀ j, j < l.OFF → l.OUT[j]? = some (DATA.getD j 0#8 ^^^ c.keystreamByte cfg j)

theorem start_at : LoopAt cfg DATA c 0 (ProcLoop.start c) where
  counter := rfl
  offset := by simp [ProcLoop.start]
  started := by omega
  context := rfl
  length := rfl
  bytes j h := by simp [ProcLoop.start] at h

/-- A turn goes on from where the loop stands. -/
theorem procTurn_at (k : Nat) (l : ProcLoop) (h : LoopAt cfg DATA c k l) (hl : l.OFF < DATA.length) :
    LoopAt cfg DATA c (k + 1) (procTurn cfg DATA l) := by
  have hk : 64 * k < DATA.length := by have := h.offset; omega
  have hoff : l.OFF = 64 * k := by have := h.offset; omega
  have hctx : diffuse cfg (ctrAdd (l.BC + 1) l.ctx) = c.afterBlocks cfg (k + 1) := by
    rw [h.counter, h.context, afterBlocks_succ]
  have hlen := h.length
  refine ⟨?_, ?_, ?_, ?_, ?_, ?_⟩
  · simp [procTurn, h.counter]
  · simp [procTurn, hoff, Lit.blockLen]; omega
  · omega
  · simpa [procTurn] using hctx
  · rw [procTurn]
    simp only [List.length_append]
    rw [xorBlk_length _ _ _ _ _ (by simp) (by omega), hlen]
  · intro j hj
    simp only [procTurn, Lit.blockLen] at hj ⊢
    by_cases hlt : j < l.OFF
    · rw [List.getElem?_append_left (by omega)]
      exact h.bytes j hlt
    · rw [List.getElem?_append_right (by omega), hlen,
        xorBlk_get _ _ _ _ _ _ (by omega) (by omega) (by omega), hctx]
      have h1 : l.OFF + (j - l.OFF) = j := by omega
      have h2 : j / 64 = k := by omega
      have h3 : j % 64 = j - l.OFF := by omega
      rw [h1, Context.keystreamByte, h2, h3]

/-- Enough turns end with the data used up. -/
theorem procTurns_at (n k : Nat) (l : ProcLoop) (h : LoopAt cfg DATA c k l) (hn : DATA.length ≤ l.OFF + n) :
    LoopAt cfg DATA c (blockCount DATA.length) (procTurns cfg DATA n l) ∧
      (procTurns cfg DATA n l).OFF = DATA.length := by
  have done : ∀ k l, LoopAt cfg DATA c k l → DATA.length ≤ l.OFF →
      LoopAt cfg DATA c (blockCount DATA.length) l ∧ l.OFF = DATA.length := by
    intro k l h hl
    have h1 := h.offset
    have h2 := h.started
    have hk : k = blockCount DATA.length := by unfold blockCount; omega
    exact ⟨hk ▸ h, by omega⟩
  induction n generalizing k l with
  | zero => exact done k l h (by omega)
  | succ n ih =>
    unfold procTurns
    split
    · rename_i hl
      have ht := procTurn_at cfg DATA c k l h hl
      refine ih (k + 1) _ ht ?_
      simp only [procTurn]
      simp only [Lit.blockLen]
      omega
    · exact done k l h (by omega)

/-- The whole loop: the context after all blocks, and as many bytes as the data, each its data byte exclusive-or its keystream
byte. -/
theorem procLoop_spec :
    (procLoop cfg DATA c).ctx = c.afterBlocks cfg (blockCount DATA.length) ∧
      (procLoop cfg DATA c).OUT.length = DATA.length ∧
      ∀ j, j < DATA.length → (procLoop cfg DATA c).OUT[j]? = some (DATA.getD j 0#8 ^^^ c.keystreamByte cfg j) := by
  obtain ⟨h, hoff⟩ := procTurns_at cfg DATA c DATA.length 0 (ProcLoop.start c) (start_at cfg DATA c) (by omega)
  exact ⟨h.context, by rw [procLoop, h.length, hoff], fun j hj => h.bytes j (by omega)⟩

end Sys2Proof.Machine
end

