-- ==== Sys2Proof/Laws/Operands.lean ====
section
/-! SUPPORT. When operands assemble: the causes of `InvalidArgument`, the operands, and well-formedness say one thing. -/

namespace Sys2Proof.Machine

theorem causeIf_eq_nil (b : Bool) (c : Cause) : causeIf b c = [] ↔ b = false := by
  cases b <;> simp [causeIf]

theorem clearCauses_eq_nil (frames : List Frame) : clearCauses frames = [] ↔ frames = [] := by
  simp [clearCauses, causeIf_eq_nil]

theorem initCauses_eq_nil (frames : List Frame) :
    initCauses frames = [] ↔ ∃ KEY NONCE, frames = [KEY, NONCE] ∧ KEY ≠ [] ∧ NONCE.length = 12 := by
  match frames with
  | [] => simp [initCauses, causeIf_eq_nil, keyOperand, nonceOperand]
  | [_] => simp [initCauses, causeIf_eq_nil, keyOperand, nonceOperand]
  | [_, _] => simp [initCauses, causeIf_eq_nil, keyOperand, nonceOperand, Lit.nonceLen]
  | _ :: _ :: _ :: _ => simp [initCauses, causeIf_eq_nil, keyOperand, nonceOperand]

theorem procCauses_eq_nil (frames : List Frame) :
    procCauses frames = [] ↔ ∃ DATA, frames = [DATA] ∧ DATA ≠ [] := by
  match frames with
  | [] => simp [procCauses, causeIf_eq_nil, dataOperand]
  | [_] => simp [procCauses, causeIf_eq_nil, dataOperand]
  | _ :: _ :: _ => simp [procCauses, causeIf_eq_nil, dataOperand]

/-- The operands of a valid `INIT` are its two frames. -/
theorem initOperands_valid (KEY NONCE : Frame) (hk : KEY ≠ []) (hn : NONCE.length = 12) :
    initOperands [KEY, NONCE] = some (KEY, NONCE) := by
  have h : initCauses [KEY, NONCE] = [] := (initCauses_eq_nil _).2 ⟨KEY, NONCE, rfl, hk, hn⟩
  simp [initOperands, h, keyOperand, nonceOperand]

/-- An `INIT` has operands exactly when it meets no cause. -/
theorem initOperands_eq_none (frames : List Frame) : initOperands frames = none ↔ initCauses frames ≠ [] := by
  constructor
  · intro h hc
    obtain ⟨KEY, NONCE, rfl, hk, hn⟩ := (initCauses_eq_nil _).1 hc
    simp [initOperands_valid KEY NONCE hk hn] at h
  · intro h
    cases hc : initCauses frames with
    | nil => exact absurd hc h
    | cons a l => simp [initOperands, hc]

/-- The operand of a valid `PROC` is its frame. -/
theorem procOperand_valid (DATA : Frame) (hd : DATA ≠ []) : procOperand [DATA] = some DATA := by
  have h : procCauses [DATA] = [] := (procCauses_eq_nil _).2 ⟨DATA, rfl, hd⟩
  simp [procOperand, h, dataOperand]

/-- A `PROC` has its operand exactly when it meets no cause. -/
theorem procOperand_eq_none (frames : List Frame) : procOperand frames = none ↔ procCauses frames ≠ [] := by
  constructor
  · intro h hc
    obtain ⟨DATA, rfl, hd⟩ := (procCauses_eq_nil _).1 hc
    simp [procOperand_valid DATA hd] at h
  · intro h
    cases hc : procCauses frames with
    | nil => exact absurd hc h
    | cons a l => simp [procOperand, hc]

/-- Well-formed, as syntax, and free of causes, as the machine checks it, are the same. -/
theorem wellFormed_iff_no_cause (i : Instr) : i.wellFormed = true ↔ causes i = [] := by
  cases i with
  | clear frames => simp [Instr.wellFormed, Instr.frameCountOk, Instr.firstOperandOk, Instr.nonceOk, Instr.frames,
      Instr.arity, causes, clearCauses_eq_nil]
  | init frames =>
    rw [causes, initCauses_eq_nil]
    match frames with
    | [] => simp [Instr.wellFormed, Instr.frameCountOk, Instr.frames, Instr.arity]
    | [_] => simp [Instr.wellFormed, Instr.frameCountOk, Instr.frames, Instr.arity]
    | [_, _] => simp [Instr.wellFormed, Instr.frameCountOk, Instr.firstOperandOk, Instr.nonceOk, Instr.frames,
        Instr.arity, Lit.nonceLen]
    | _ :: _ :: _ :: _ => simp [Instr.wellFormed, Instr.frameCountOk, Instr.frames, Instr.arity]
  | proc frames =>
    rw [causes, procCauses_eq_nil]
    match frames with
    | [] => simp [Instr.wellFormed, Instr.frameCountOk, Instr.frames, Instr.arity]
    | [_] => simp [Instr.wellFormed, Instr.frameCountOk, Instr.firstOperandOk, Instr.nonceOk, Instr.frames, Instr.arity]
    | _ :: _ :: _ => simp [Instr.wellFormed, Instr.frameCountOk, Instr.frames, Instr.arity]

end Sys2Proof.Machine
end

