-- ==== Sys2Proof/Laws/PerInstr.lean ====
section
/-! SUPPORT. What holds of every instruction as syntax, one lemma per constructor. -/

namespace Sys2Proof.Laws.WireForm

/-- The wire form of an instruction keeps its frames in order, its header is one of the three opcodes in use, and a well-formed
one supplies as many frames as its opcode takes (30_encoding.md R45, R47, R51). -/
def Statement (i : Instr) : Prop :=
  (encode i).frames = i.frames ∧ (encode i).header.toNat < 3 ∧ (i.wellFormed = true → i.frames.length = i.arity)

theorem wellFormed_count (i : Instr) (h : i.wellFormed = true) : i.frames.length = i.arity := by
  simp only [Instr.wellFormed, Instr.frameCountOk, Bool.and_eq_true, beq_iff_eq] at h
  exact h.1.1

end Sys2Proof.Laws.WireForm

namespace Sys2Proof

theorem Laws.WireForm.clear (frames : List Frame) : Laws.WireForm.Statement (.clear frames) :=
  ⟨rfl, (by decide : (0x00#8).toNat < 3), Laws.WireForm.wellFormed_count _⟩

theorem Laws.WireForm.init (frames : List Frame) : Laws.WireForm.Statement (.init frames) :=
  ⟨rfl, (by decide : (0x01#8).toNat < 3), Laws.WireForm.wellFormed_count _⟩

theorem Laws.WireForm.proc (frames : List Frame) : Laws.WireForm.Statement (.proc frames) :=
  ⟨rfl, (by decide : (0x02#8).toNat < 3), Laws.WireForm.wellFormed_count _⟩

end Sys2Proof
end

