-- ==== Sys2Proof/Laws/Seed.lean ====
section
/-! SUPPORT. What `SEED`, `ABSORB` and `DERIVE` do, word by word. -/

namespace Sys2Proof.Machine

variable (cfg : Config) (S : StateArray) (M : MatrixState) (c : Context)

/-- The word `SEED` writes. -/
theorem seedWords_get (KL : Nat) (i : Fin 16) : (seedWords cfg KL)[i] = getK cfg (seedIndex cfg.LENW KL i.val) := by
  simp [seedWords]

/-- Absorbing two frames one after the other is absorbing the second from where the first ended. -/
theorem absorbFrom_append (order : ByteOrder) (j : Nat) (F G : Frame) :
    absorbFrom order j (F ++ G) S = absorbFrom order (j + F.length) G (absorbFrom order j F S) := by
  induction F generalizing j S with
  | nil => rfl
  | cons b F ih =>
    simp only [List.cons_append, absorbFrom, List.length_cons, ih]
    congr 1
    omega

/-- One cell of the deriver's body writes one live word. -/
theorem getM_deriveCell (r x r' x' : Fin 4) :
    getM (deriveCell cfg S M r x) r' x' =
      if r' = r ∧ x' = x then getM M r x ^^^ S[sIdx (deriveOp r x)] ^^^ getK cfg (deriveOp r x) else getM M r' x' := by
  simp only [deriveCell, getM_setM]

/-- The deriver's body, word by word: live words take their two words, pad slots stay. -/
theorem getM_deriveCells (r x : Fin 4) :
    getM (deriveCells cfg S M) r x =
      if x = 3 then getM M r x else getM M r x ^^^ S[sIdx (deriveOp r x)] ^^^ getK cfg (deriveOp r x) := by
  fin_cases r <;> fin_cases x <;> simp [deriveCells, quads, axes, getM_deriveCell]

@[simp] theorem derive_S : (derive cfg c).S = c.S := by
  unfold derive
  split <;> rfl

@[simp] theorem derive_MI : (derive cfg c).MI = true := by
  unfold derive
  split
  · assumption
  · rfl

theorem derive_pad (r : Fin 4) : getM (derive cfg c).M r 3 = getM c.M r 3 := by
  unfold derive
  split
  · rfl
  · simp [getM_deriveCells]

end Sys2Proof.Machine
end

