-- ==== Sys2Proof/Laws/Step.lean ====
section
/-! SUPPORT. What the meanings and a step can do, each said once. -/

namespace Sys2Proof.Machine

variable (s : State) (frames : List Frame)

/-! ## The meanings: valid, or the exception -/

theorem execClear_cases :
    (frames = [] ∧ execClear frames s = .next (respondOk none (zeroContext s))) ∨
      (frames ≠ [] ∧ execClear frames s = .next (raiseInvalidArgument s)) := by
  cases frames with
  | nil => exact .inl ⟨rfl, rfl⟩
  | cons f fs => exact .inr ⟨by simp, by simp [execClear, clearCauses, causeIf]⟩

theorem execInit_cases :
    (∃ KEY NONCE, frames = [KEY, NONCE] ∧ KEY ≠ [] ∧ NONCE.length = 12 ∧
        execInit frames s = .next (respondOk none { s with ctx := initContext s.cfg KEY NONCE s.ctx })) ∨
      (initCauses frames ≠ [] ∧ execInit frames s = .next (raiseInvalidArgument s)) := by
  by_cases h : initCauses frames = []
  · obtain ⟨KEY, NONCE, rfl, hk, hn⟩ := (initCauses_eq_nil frames).1 h
    exact .inl ⟨KEY, NONCE, rfl, hk, hn, by simp [execInit, initOperands_valid KEY NONCE hk hn]⟩
  · exact .inr ⟨h, by simp [execInit, (initOperands_eq_none frames).2 h]⟩

theorem execProc_cases :
    (∃ DATA, frames = [DATA] ∧ DATA ≠ [] ∧
        execProc frames s = .next (respondOk (some (procLoop s.cfg DATA s.ctx).OUT)
          { s with ctx := (procLoop s.cfg DATA s.ctx).ctx })) ∨
      (procCauses frames ≠ [] ∧ execProc frames s = .next (raiseInvalidArgument s)) := by
  by_cases h : procCauses frames = []
  · obtain ⟨DATA, rfl, hd⟩ := (procCauses_eq_nil frames).1 h
    exact .inl ⟨DATA, rfl, hd, by simp [execProc, procOperand_valid DATA hd]⟩
  · exact .inr ⟨h, by simp [execProc, (procOperand_eq_none frames).2 h]⟩

/-! ## The context a valid `INIT` leaves -/

theorem initContext_MI (cfg : Config) (KEY NONCE : Frame) (c : Context) : (initContext cfg KEY NONCE c).MI = true := by
  simp [initContext]

theorem initContext_pad (cfg : Config) (KEY NONCE : Frame) (c : Context) (r : Fin 4) :
    getM (initContext cfg KEY NONCE c).M r 3 = getM c.M r 3 := by
  simp [initContext, derive_pad]

/-! ## One step -/

/-- Every step is one of these: the engine waits, is reset, rejects a reserved opcode, or runs an instruction. -/
theorem step_cases :
    (s.input = [] ∧ step s = .next s) ∨
      (∃ rest, s.input = .reset :: rest ∧ step s = .next (resetEngine { s with input := rest })) ∨
      (∃ c op rest, s.input = .command c :: rest ∧ decode c = .reservedOpcode op ∧
        step s = .next (raiseInvalidArgument { s with input := rest })) ∨
      (∃ c i rest, s.input = .command c :: rest ∧ decode c = .instr i ∧ step s = exec i { s with input := rest }) := by
  match h : s.input with
  | [] => exact .inl ⟨rfl, by simp [step, fetch, h]⟩
  | .reset :: rest => exact .inr (.inl ⟨rest, rfl, by simp [step, fetch, h]⟩)
  | .command c :: rest =>
    match hd : decode c with
    | .reservedOpcode op => exact .inr (.inr (.inl ⟨c, op, rest, rfl, hd, by simp [step, fetch, h, hd]⟩))
    | .instr i => exact .inr (.inr (.inr ⟨c, i, rest, rfl, hd, by simp [step, fetch, h, hd]⟩))

/-- A run takes its first step, and then the rest. -/
theorem run_succ (n : Nat) (t : State) (h : step s = .next t) : core.run (n + 1) s = core.run n t := by
  simp [Host.Core.run, core, h]

end Sys2Proof.Machine
end

