-- ==== Sys2Proof/Tests/Slice0.lean ====
section
/-! SUPPORT. Tests whose expected values are the spec's (95_test_vectors.md and the rules' own examples, with the test table
`KT` of its section 2), and for every obligation with premises a witness that meets them. -/

namespace Sys2Proof.Tests

open Sys2Proof.Machine

/-! ## The parts -/

/-- The spec's test table, not the hardware's (95_test_vectors.md, section 2). -/
def KT : Vector Word 24 := Vector.ofFn fun j => BitVec.ofNat 32 ((j.val + 1) * 0x9E3779B9)

/-- The engine of the spec's vectors after reset. -/
def start : State := { State.reset with cfg := { Config.engine with K := KT } }

/-- The same engine, active: its flag set. -/
def active : State := { start with ctx := { start.ctx with MI := true } }

/-- What is seen of the state an outcome answers, if it answers one. -/
def seen {α : Type} (f : State → α) : Host.Outcome State Fault Refusal → Option α
  | .next t => some (f t)
  | .fault _ => none
  | .refused _ => none

/-- `n` zero bytes. -/
abbrev zeros (n : Nat) : Frame := List.replicate n 0#8

/-- A state array of four words given, the rest zero. -/
def words (a b c d : Word) : StateArray :=
  ((((Vector.replicate 16 0#32).set 0 a).set 1 b).set 2 c).set 3 d

/-- A state with one move to take. -/
def facing (m : HostMove) : State := { start with input := [m] }

/-! ## WellFormed: one ill-formed term for each check, and the edges of the good ones -/

theorem test_wellFormed_refuses_frame_counts :
    (Instr.clear [[]]).wellFormed = false ∧ (Instr.init [[1#8]]).wellFormed = false ∧
    (Instr.init [[1#8], zeros 12, []]).wellFormed = false ∧ (Instr.proc []).wellFormed = false ∧
    (Instr.proc [[1#8], [1#8]]).wellFormed = false := by decide

theorem test_wellFormed_refuses_empty_first_operand :
    (Instr.init [[], zeros 12]).wellFormed = false ∧ (Instr.proc [[]]).wellFormed = false := by decide

theorem test_wellFormed_refuses_nonce_length :
    (Instr.init [[1#8], zeros 11]).wellFormed = false ∧ (Instr.init [[1#8], zeros 13]).wellFormed = false := by decide

theorem test_wellFormed_accepts :
    (Instr.clear []).wellFormed = true ∧ (Instr.init [[1#8], zeros 12]).wellFormed = true ∧
    (Instr.proc [[1#8]]).wellFormed = true := by decide

/-! ## Decoding: the header bytes of R47, bit by bit -/

theorem test_decode_clear : decode ⟨0b00000000#8, []⟩ = .instr (.clear []) := by decide

theorem test_decode_init : decode ⟨0b00000001#8, [[7#8], zeros 12]⟩ = .instr (.init [[7#8], zeros 12]) := by decide

theorem test_decode_proc : decode ⟨0b00000010#8, [[7#8, 8#8]]⟩ = .instr (.proc [[7#8, 8#8]]) := by decide

/-- R50: the first, a middle and the last reserved opcode. -/
theorem test_decode_reserved :
    decode ⟨0b00000011#8, []⟩ = .reservedOpcode 0x03#8 ∧ decode ⟨0b01111111#8, []⟩ = .reservedOpcode 0x7F#8 ∧
    decode ⟨0b11111111#8, [[]]⟩ = .reservedOpcode 0xFF#8 := by decide

theorem test_table_rows :
    decodeTableWord 8 0 = some (.clear []) ∧ decodeTableWord 8 1 = some (.init [zeros 1, zeros 12]) ∧
    decodeTableWord 8 2 = some (.proc [zeros 1]) ∧ decodeTableWord 8 3 = none := by decide

/-- A row's word runs as the first instruction after reset, and leaves no move behind it. -/
theorem test_table_rows_run :
    seen (·.responses) (step (State.reset.withFetchWord 8 0)) = some [Response.okNone] ∧
    seen (·.responses) (step (State.reset.withFetchWord 8 1)) = some [Response.okNone] ∧
    seen (·.input) (step (State.reset.withFetchWord 8 2)) = some [] := by decide

/-! ## The text form (R53, R54; 95_test_vectors.md, P2 and P3) -/

theorem test_assemble :
    Asm.assemble "CLEAR # comment\nINIT  key=0001 nonce=00*12\nPROC  data=-\n\nENC data=\"\"" =
      some [⟨0x00#8, []⟩, ⟨0x01#8, [[0x00#8, 0x01#8], zeros 12]⟩, ⟨0x02#8, []⟩, ⟨0x02#8, [[]]⟩] := by decide

theorem test_assemble_newctx_absent_nonce :
    Asm.assemble "NEWCTX key=aB nonce=-" = some [⟨0x00#8, []⟩, ⟨0x01#8, [[0xAB#8]]⟩] ∧
    Asm.assemble "PROC data=123" = none := by decide

/-! ## Micro-operations -/

/-- 95_test_vectors.md, section 2. -/
theorem test_KT : KT[4] = 0x1715609D#32 ∧ KT[23] = 0xD5336958#32 := by decide

/-- 95_test_vectors.md, M10: every statement of `MIX` moves this result. -/
theorem test_mix_M10 :
    mix 0 1 2 3 0xDEADBEEF#32 0xCAFEBABE#32 (words 0x01234567#32 0x89ABCDEF#32 0xFEDCBA98#32 0x76543210#32) =
      words 0x4FD119E1#32 0x48DF12BD#32 0xFC86DA08#32 0x0DB411F9#32 := by decide

/-- 95_test_vectors.md, A1 to A3: coinciding locations. -/
theorem test_mix_coinciding :
    mix 0 1 1 2 0x55555555#32 0x66666666#32 (words 0x11111111#32 0x22222222#32 0x44444444#32 0#32) =
      words 0x86886788#32 0x8BBB27BB#32 0x764F7717#32 0#32 ∧
    mix 0 1 0 2 0x55555555#32 0x66666666#32 (words 0x11111111#32 0x22222222#32 0x44444444#32 0#32) =
      words 0x1A2AA66A#32 0xBDDD9DDD#32 0x554CD434#32 0#32 ∧
    mix 0 1 2 2 0x55555555#32 0x66666666#32 (words 0x11111111#32 0x22222222#32 0x33333333#32 0#32) =
      words 0x68AAAAAA#32 0xCCCC8CCC#32 0xFFFFFFFF#32 0#32 := by decide

/-- R75, the row `i = 1`, and `i = 4`, where the diagonal uses the whole of `i`. -/
theorem test_quarter_references :
    quads.map (colidx 1) = [4, 5, 6, 7] ∧ quads.map (rowidx 1) = [1, 5, 9, 13] ∧
    quads.map (diaidx 1) = [1, 6, 11, 0] ∧ quads.map (diaidx 4) = [4, 9, 14, 3] := by decide

/-- 95_test_vectors.md, section 5: rows of the seed index. -/
theorem test_seed_index :
    (List.range 16).map (seedIndex .unbounded 32) = [16, 8, 0, 16, 8, 0, 16, 8, 0, 16, 8, 0, 16, 8, 0, 16] ∧
    (List.range 16).map (seedIndex .w32 256) = [8, 16, 0, 8, 16, 0, 8, 0, 8, 16, 0, 8, 16, 0, 8, 0] ∧
    seedIndex .w32 128 15 = 0 ∧ seedIndex .w64 (2 ^ 39) 15 = 0 ∧ seedIndex .unbounded (2 ^ 39) 15 = 16 := by decide

/-- 95_test_vectors.md, V4a: both byte orders. -/
theorem test_absorb_V4a :
    (absorb start.cfg [1#8, 2#8, 3#8, 4#8, 5#8] Context.zero).S = words 0x04030201#32 0x00000005#32 0#32 0#32 ∧
    (absorb { start.cfg with BYTE_ORDER := .big } [1#8, 2#8, 3#8, 4#8, 5#8] Context.zero).S =
      words 0x01020304#32 0x05000000#32 0#32 0#32 := by decide

/-- 95_test_vectors.md, V4c: 70 bytes fold. -/
theorem test_absorb_V4c :
    let S := (absorb start.cfg (List.replicate 70 0xFF#8) Context.zero).S
    S[0] = 0#32 ∧ S[1] = 0xFFFF0000#32 ∧ S[2] = 0xFFFFFFFF#32 ∧ S[15] = 0xFFFFFFFF#32 := by decide

/-- R67: the deriver's index, row by row. -/
theorem test_derive_index :
    quads.map (fun r => axes.map fun x => (deriveOp r x, deriveOp r x % 16, deriveOp r x % 24)) =
      [[(0, 0, 0), (11, 11, 11), (22, 6, 22)], [(7, 7, 7), (18, 2, 18), (29, 13, 5)],
       [(14, 14, 14), (25, 9, 1), (36, 4, 12)], [(21, 5, 21), (32, 0, 8), (43, 11, 19)]] := by decide

/-- 95_test_vectors.md, V1 after `DERIVE`. -/
theorem test_derive_V1 :
    let c := derive start.cfg (seed start.cfg 32 Context.zero)
    getM c.M 0 0 = 0x1F986CF0#32 ∧ getM c.M 1 2 = 0x3ABF9DD7#32 ∧ getM c.M 3 2 = 0xC262FBCD#32 ∧ getM c.M 3 3 = 0#32 ∧
    c.MI = true := by decide

/-- R96, its example. -/
theorem test_ksView_row :
    (paddedView .little (Vector.replicate 4 #v[0xEFEB9BAF#32, 0x82EC8449#32, 0x82EC8449#32, 0#32])).take 16 =
      [0xAF#8, 0x9B#8, 0xEB#8, 0xEF#8, 0x49#8, 0x84#8, 0xEC#8, 0x82#8,
       0x49#8, 0x84#8, 0xEC#8, 0x82#8, 0#8, 0#8, 0#8, 0#8] := by decide

/-! ## Commands -/

/-- R110, its example. -/
theorem test_clear :
    seen (fun t => (t.ctx, t.responses)) (exec (.clear []) active) = some (Context.zero, [Response.okNone]) := by decide

/-- 95_test_vectors.md, V1, the state after `INIT`. -/
theorem test_init_V1 :
    seen (fun t => (t.ctx.S[0], t.ctx.S[15], t.ctx.M[0], t.ctx.MI)) (exec (.init [zeros 32, zeros 12]) start) =
      some (0x68CBA0F4#32, 0xA4E6DC44#32, #v[0x8E4A4EAA#32, 0x853BD78C#32, 0x853BD78C#32, 0#32], true) := by
  set_option maxRecDepth 100000 in decide

/-- 95_test_vectors.md, V5: `PROC` right after reset, on an engine whose table nobody knows. -/
theorem test_proc_V5 :
    seen (fun t => (t.responses, t.ctx.S[0], t.ctx.M[3], t.ctx.MI)) (exec (.proc [zeros 4]) State.reset) =
      some ([Response.okWith [0x95#8, 0x4C#8, 0x66#8, 0x09#8]], 0xAC6677B0#32,
        #v[0x923CC17F#32, 0x923CC17F#32, 0x873A7E73#32, 0#32], false) := by
  set_option maxRecDepth 100000 in decide

/-- 95_test_vectors.md, P3: refused commands change nothing but the answers. -/
theorem test_refused_P3 :
    ∀ i ∈ [Instr.init [], .init [zeros 32], .init [[], zeros 12], .init [zeros 32, zeros 11], .init [zeros 32, zeros 13],
        .init [zeros 32, zeros 12, zeros 1], .proc [], .proc [[]], .proc [zeros 1, zeros 1], .clear [zeros 1]],
      seen (fun t => (t.ctx.MI, t.ctx.S, t.responses)) (exec i active) =
        some (true, active.ctx.S, [Response.invalid]) := by decide

/-- R140: a reset pulse zeroes the context and answers nothing. -/
theorem test_reset_pulse :
    seen (fun t => (t.ctx, t.input, t.responses)) (step { active with input := [.reset] }) =
      some (Context.zero, [], []) := by decide

/-! ## Witnesses: the premises of each obligation can be met -/

theorem witness_ResetAndClearZeroTheContext : (facing .reset).input = .reset :: [] := by decide

theorem witness_ResetPulseAnswersNothing : (facing .reset).input = .reset :: [] := by decide

theorem witness_ClearZeroFillsOrRejectsFrames : ([] : List Frame) = [] ∧ [([] : Frame)] ≠ [] := by decide

theorem witness_ClearForgetsTheContext : (facing (issue (.clear []))).input = issue (.clear []) :: [] := by decide

theorem witness_InitRunsItsMicroOperationsInOrder : zeros 1 ≠ [] ∧ (zeros 12).length = 12 := by decide

theorem witness_InitInvalidExactlyWhen :
    (([] : List Frame)[0]? = none) ∧ ([zeros 1][1]? = none) ∧ (([[], zeros 12] : List Frame)[0]? = some []) ∧
    ([zeros 1, zeros 11][1]? = some (zeros 11) ∧ (zeros 11).length ≠ 12) ∧
    ([zeros 1, zeros 13][1]? = some (zeros 13) ∧ (zeros 13).length ≠ 12) ∧
    2 < [zeros 1, zeros 12, []].length := by decide

theorem witness_InitInvalidExactlyWhen_valid :
    ¬ ([zeros 1, zeros 12][0]? = none ∨ [zeros 1, zeros 12][1]? = none ∨ [zeros 1, zeros 12][0]? = some [] ∨
      (∃ NONCE, [zeros 1, zeros 12][1]? = some NONCE ∧ NONCE.length ≠ 12) ∨ 2 < [zeros 1, zeros 12].length) := by simp

theorem witness_InitIgnoresOldStateArrayAndKeepsOldMatrix :
    zeros 1 ≠ [] ∧ (zeros 12).length = 12 ∧ active.ctx.MI = true := by decide

theorem witness_InitOnContractDerivesFromStateAndTable :
    zeros 1 ≠ [] ∧ (zeros 12).length = 12 ∧ State.reset.keepsContract (.init [zeros 1, zeros 12]) ∧
    (2 : Fin 4) ≠ 3 := by decide

theorem witness_SeedIndexClosedForm : 15 < 16 ∧ 127 ≤ 127 ∧ 2 ^ 39 - 1 < 2 ^ 39 := by decide

theorem witness_SeedWritesTheIndexedConstants :
    { start.cfg with LENW := .w32 }.LENW = .w32 ∧ { start.cfg with LENW := .w64 }.LENW = .w64 ∧
    start.cfg.LENW = .unbounded := by decide

theorem witness_SeededStateDependsOnKeyLengthOnly : start.cfg.LENW = .unbounded ∧ 1 % 3 = 4 % 3 := by decide

theorem witness_NonceRestartsAtWordZero :
    (zeros 12).length = 12 ∧ 3 ≤ (3 : Fin 16).val ∧ 3 ≤ (15 : Fin 16).val ∧ 0 < 12 ∧ 11 < 12 := by decide

theorem witness_KeysThatFoldAlikeAreEquivalent :
    start.cfg.LENW = .unbounded ∧ [7#8] ≠ [] ∧ [7#8, 0#8, 0#8, 0#8] ≠ [] ∧ (zeros 12).length = 12 ∧
    [7#8].length % 3 = [7#8, 0#8, 0#8, 0#8].length % 3 ∧
    (∀ p, p < 64 → laneFold p [7#8] = laneFold p [7#8, 0#8, 0#8, 0#8]) ∧ (List.replicate 64 9#8).length = 64 := by decide

theorem witness_DeriveFillsTheLiveWordsOnce :
    active.ctx.MI = true ∧ start.ctx.MI = false ∧ (0 : Fin 4) ≠ 3 ∧ (2 : Fin 4) ≠ 3 := by decide

theorem witness_ColumnAndRowReferenceCoincide :
    (colidx 0 0 = rowidx 0 0 ∧ (0 : Fin 4).val = 0 % 4) ∧ (colidx 7 3 = rowidx 7 3 ∧ (3 : Fin 4).val = 7 % 4) := by decide

theorem witness_MixOnDistinctLocations :
    (0 : Fin 16) ≠ 1 ∧ (0 : Fin 16) ≠ 2 ∧ (0 : Fin 16) ≠ 15 ∧ (1 : Fin 16) ≠ 2 ∧ (1 : Fin 16) ≠ 15 ∧
    (2 : Fin 16) ≠ 15 ∧ ∀ y ∈ [(0 : Fin 16), 1, 2, 15], (3 : Fin 16) ≠ y := by decide

theorem witness_MixWritesOnlyItsLocations : ∀ y ∈ [(0 : Fin 16), 1, 1, 2], (15 : Fin 16) ≠ y := by decide

theorem witness_LastLineRotatesC : (0 : Fin 16) ≠ 15 := by decide

theorem witness_MixOnCoincidingLocations :
    let S := words 0x11111111#32 0x22222222#32 0x44444444#32 0x33333333#32
    ((0 : Fin 16) ≠ 1 ∧ (0 : Fin 16) ≠ 2 ∧ (1 : Fin 16) ≠ 2 ∧
      S[0] = 0x11111111#32 ∧ S[1] = 0x22222222#32 ∧ S[2] = 0x44444444#32) ∧
    ((0 : Fin 16) ≠ 3 ∧ (1 : Fin 16) ≠ 3 ∧ S[3] = 0x33333333#32) := by decide

theorem witness_CopybackOverwritesLiveWords : (3 : Fin 4).val = 3 % 4 ∧ (0 : Fin 4).val = 4 % 4 := by decide

theorem witness_PassLeavesWordsOfStateInMatrix : 1 ≤ start.cfg.MULT ∧ 1 ≤ { start.cfg with MULT := 5 }.MULT := by decide

theorem witness_CounterStepChangesOnlyTheLastWord : (0 : Fin 16).val ≠ 15 ∧ (14 : Fin 16).val ≠ 15 := by decide

theorem witness_KeystreamViewIsRowMajor : start.cfg.KSVIEW = .padded ∧ start.cfg.BYTE_ORDER = .little := by decide

theorem witness_ProcXorsOneViewPerBlock : zeros 65 ≠ [] ∧ 64 < (zeros 65).length := by decide

theorem witness_ProcInvalidExactlyWhen :
    ([] : List Frame)[0]? = none ∧ [([] : Frame)][0]? = some [] ∧ 1 < [zeros 1, zeros 1].length ∧
    ¬ ([zeros 1][0]? = none ∨ [zeros 1][0]? = some [] ∨ 1 < [zeros 1].length) := by decide

theorem witness_PassesPerProc :
    (1 ≤ 1 ∧ (zeros 64).length = 64 * 1) ∧ (0 < 1 ∧ 1 < 64 ∧ (zeros 1).length = 64 * 0 + 1) ∧
    (0 < 63 ∧ 63 < 64 ∧ (zeros 127).length = 64 * 1 + 63) ∧ procCauses [] ≠ [] := by decide

theorem witness_ProcReadsNoConstantAndKeepsMI : zeros 1 ≠ [] := by decide

theorem witness_PadPositionsPassDataThrough :
    State.reset.Inv ∧ State.reset.cfg.KSVIEW = .padded ∧ zeros 16 ≠ [] ∧ 12 < (zeros 16).length ∧ 12 ≤ 12 % 16 ∧
    15 < (zeros 16).length ∧ 12 ≤ 15 % 16 := by decide

theorem witness_FirstBlockAgreesInEveryCutting :
    zeros 64 ≠ [] ∧ zeros 128 ≠ [] ∧ 63 < 64 ∧ 63 < (zeros 64).length ∧ 63 < (zeros 128).length := by decide

theorem witness_KeystreamDependsOnLengthsAlone :
    let s : State := { start with input := [issue (.proc [[1#8]]), issue (.proc [[2#8, 3#8]])] }
    let s' : State := { start with input := [issue (.proc [[4#8]]), issue (.proc [[5#8, 6#8]]), .reset] }
    s.cfg = s'.cfg ∧ s.ctx = s'.ctx ∧
    [[1#8], [2#8, 3#8]].map List.length = [[4#8], [5#8, 6#8]].map List.length ∧
    s.input = [[1#8], [2#8, 3#8]].map (fun d => issue (.proc [d])) ++ [] ∧
    s'.input = [[4#8], [5#8, 6#8]].map (fun d => issue (.proc [d])) ++ [.reset] := by decide

/-- The other engine's premises: its outputs `outs` are whatever the first engine answered; here, two pieces of them. -/
theorem witness_RoundTripRecoversTheMessage :
    let s : State := { start with input := message (zeros 1) (zeros 12) [[1#8], []] }
    let s' : State := { active with input := message (zeros 1) (zeros 12) [[9#8], []] ++ [.reset] }
    zeros 1 ≠ [] ∧ (zeros 12).length = 12 ∧ s.input = message (zeros 1) (zeros 12) [[1#8], []] ++ [] ∧
    s'.cfg = s.cfg ∧ s'.input = message (zeros 1) (zeros 12) [[9#8], []] ++ [.reset] := by decide

theorem witness_EveryCommandGetsOneResponse : (facing (.command ⟨0xFF#8, []⟩)).input = .command ⟨0xFF#8, []⟩ :: [] := by decide

theorem witness_InvalidArgumentIsANoOp :
    (facing (.command ⟨2#8, [[]]⟩)).input = .command ⟨2#8, [[]]⟩ :: [] ∧
    (decode ⟨2#8, [[]]⟩ = .instr (.proc [[]]) ∧ causes (.proc [[]]) ≠ []) ∧
    decode ⟨3#8, []⟩ = .reservedOpcode 3#8 ∧
    (decode ⟨2#8, [zeros 1]⟩ = .instr (.proc [zeros 1]) ∧ causes (.proc [zeros 1]) = []) := by decide

theorem witness_ReservedOpcodeIsEinval :
    (facing (.command ⟨3#8, []⟩)).input = .command ⟨3#8, []⟩ :: [] ∧ 3 ≤ (3#8).toNat ∧ 3 ≤ (0xFF#8).toNat := by decide

theorem witness_OnlyInitRaisesMIAndOnlyClearOrResetLowersIt :
    start.ctx.MI = false ∧ initCauses [zeros 1, zeros 12] = [] ∧
    seen (·.ctx.MI) (exec (.init [zeros 1, zeros 12]) start) = some true ∧
    active.ctx.MI = true ∧ seen (·.ctx.MI) (exec (.clear []) active) = some false := by decide

/-- The same over steps: raised by a valid `INIT`, lowered by `CLEAR` and by a reset pulse. -/
theorem witness_OnlyInitRaisesMIAndOnlyClearOrResetLowersIt_steps :
    seen (·.ctx.MI) (step (facing (issue (.init [zeros 1, zeros 12])))) = some true ∧
    seen (·.ctx.MI) (step { active with input := [issue (.clear [])] }) = some false ∧
    seen (·.ctx.MI) (step { active with input := [.reset] }) = some false := by decide

theorem witness_EveryStepKeepsTheInvariant : State.reset.Inv ∧ active.Inv := by decide

theorem witness_WaitingChangesNothing : start.input = [] := by decide

theorem witness_StepRunsTheDecodedCommand :
    (facing (issue (.proc [zeros 1]))).input = .command ⟨2#8, [zeros 1]⟩ :: [] ∧
    decode ⟨2#8, [zeros 1]⟩ = .instr (.proc [zeros 1]) := by decide

theorem witness_DecodeAndEncodeAgree :
    decode ⟨0#8, []⟩ = .instr (.clear []) ∧ decode ⟨3#8, []⟩ = .reservedOpcode 3#8 ∧ 3 ≤ (3#8).toNat := by decide

theorem witness_RotationMovesEveryBit : 1 ≤ 1 ∧ 1 ≤ 31 ∧ 31 ≤ 31 ∧ 0 < 32 ∧ 31 < 32 := by decide

theorem witness_ByteLanesOfAWord : (0 : Fin 4) ≠ 3 ∧ (3 : Fin 4) ≠ 0 := by decide

end Sys2Proof.Tests
end

section
/-! PROOFS. Reset and `CLEAR`: the words of the zero-filled context, and the next state of a reset pulse and of a `CLEAR`
without a frame. -/

namespace Sys2Proof.Machine

/-- The zero-filled context is zero word by word (R22). -/
theorem zero_zeroed : Context.zero.zeroed := ⟨zero_S, zero_M, zero_MI⟩

/-- A step that takes a reset pulse resets the engine, the pulse taken (R140). -/
theorem step_of_reset (s : State) (rest : List HostMove) (h : s.input = .reset :: rest) :
    step s = .next (resetEngine { s with input := rest }) := by
  simp only [step, fetch, h]

/-- `CLEAR` without a frame zero-fills the context and answers `OK` (R110). -/
theorem exec_clear_nil (s : State) : exec (.clear []) s = .next (respondOk none (zeroContext s)) := by
  obtain ⟨-, h⟩ | ⟨h, -⟩ := execClear_cases s []
  · exact h
  · exact absurd rfl h

/-- Settles O1: reset, the pulse and `CLEAR` each leave `Context.zero` as the context, and neither transition writes the
configuration. -/
theorem resetAndClearZeroTheContext : Obligations.ResetAndClearZeroTheContext := by
  refine ⟨zero_zeroed, fun s rest h => ?pulse, fun s => ?clear⟩
  case pulse => exact ⟨_, step_of_reset s rest h, zero_zeroed, rfl⟩
  case clear => exact ⟨_, exec_clear_nil s, zero_zeroed, rfl⟩

end Sys2Proof.Machine
end

section
/-! PROOFS. The wire form and the one response: what the decoder reads, which command a step runs, and how a command that
meets no cause of `InvalidArgument`, and one that meets a cause, is answered. -/

namespace Sys2Proof

/-! ## The decoder -/

/-- A command that decodes to an instruction is that instruction's wire form (R45 to R47). -/
theorem encode_of_decode (c : Command) (i : Instr) (h : decode c = .instr i) : encode i = c := by
  obtain ⟨header, frames⟩ := c
  simp only [decode] at h
  split_ifs at h with h0 h1 h2 <;> cases h
  · rw [h0]; rfl
  · rw [h1]; rfl
  · rw [h2]; rfl

/-- The opcode of an instruction is one of the three in use (R47). -/
theorem opcode_lt_three (i : Instr) : i.opcode.toNat < 3 := by
  cases i <;> simp [Instr.opcode]

/-- A header from 0x03 on is no instruction's: the decoder answers it as reserved (R50). -/
theorem decode_of_three_le (c : Command) (h : 3 ≤ c.header.toNat) : ∃ op, decode c = .reservedOpcode op := by
  cases hd : decode c with
  | reservedOpcode op => exact ⟨op, rfl⟩
  | instr i =>
    have hlt : c.header.toNat < 3 := encode_of_decode c i hd ▸ opcode_lt_three i
    omega

end Sys2Proof

namespace Sys2Proof.Machine

/-! ## The step that takes a command -/

/-- A command the decoder knows is run on the state with the command taken (R9). -/
theorem step_of_instr (s : State) (c : Command) (rest : List HostMove) (i : Instr) (hs : s.input = .command c :: rest)
    (hd : decode c = .instr i) : step s = exec i { s with input := rest } := by
  simp only [step, fetch, hs, hd]

/-- A reserved opcode is an invalid argument, the command taken (R50). -/
theorem step_of_reservedOpcode (s : State) (c : Command) (rest : List HostMove) (op : Byte)
    (hs : s.input = .command c :: rest) (hd : decode c = .reservedOpcode op) :
    step s = .next (raiseInvalidArgument { s with input := rest }) := by
  simp only [step, fetch, hs, hd]

/-! ## How an instruction is answered -/

/-- An instruction that meets a cause takes the exception (R125, R128). -/
theorem exec_of_cause (i : Instr) (s : State) (h : causes i ≠ []) : exec i s = .next (raiseInvalidArgument s) := by
  cases i with
  | clear frames =>
    obtain ⟨rfl, -⟩ | ⟨-, he⟩ := execClear_cases s frames
    · exact absurd ((clearCauses_eq_nil []).2 rfl) h
    · exact he
  | init frames =>
    obtain ⟨KEY, NONCE, hf, hk, hn, -⟩ | ⟨-, he⟩ := execInit_cases s frames
    · exact absurd ((initCauses_eq_nil frames).2 ⟨KEY, NONCE, hf, hk, hn⟩) h
    · exact he
  | proc frames =>
    obtain ⟨DATA, hf, hd, -⟩ | ⟨-, he⟩ := execProc_cases s frames
    · exact absurd ((procCauses_eq_nil frames).2 ⟨DATA, hf, hd⟩) h
    · exact he

/-- An instruction that meets no cause rewrites the context alone and is answered `OK`, with an output frame exactly where it
is `PROC` (R49). -/
theorem exec_of_no_cause (i : Instr) (s : State) (h : causes i = []) :
    ∃ out ctx, exec i s = .next (respondOk out { s with ctx := ctx }) ∧ (out.isSome ↔ i.opcode = 0x02#8) := by
  cases i with
  | clear frames =>
    obtain ⟨-, he⟩ | ⟨hne, -⟩ := execClear_cases s frames
    · exact ⟨none, Context.zero, he, by simp [Instr.opcode]⟩
    · exact absurd ((clearCauses_eq_nil frames).1 h) hne
  | init frames =>
    obtain ⟨KEY, NONCE, -, -, -, he⟩ | ⟨hne, -⟩ := execInit_cases s frames
    · exact ⟨none, _, he, by simp [Instr.opcode]⟩
    · exact absurd h hne
  | proc frames =>
    obtain ⟨DATA, -, -, he⟩ | ⟨hne, -⟩ := execProc_cases s frames
    · exact ⟨some _, _, he, by simp [Instr.opcode]⟩
    · exact absurd h hne

/-! ## The statements -/

/-- Settles O39: the command is reserved, meets a cause or meets none, and each way ends with the one response that
`raiseInvalidArgument` or `respondOk` appends. -/
theorem everyCommandGetsOneResponse : Obligations.EveryCommandGetsOneResponse := by
  refine ⟨⟨rfl, rfl⟩, fun s c rest hs => ?_⟩
  cases hd : decode c with
  | reservedOpcode op =>
    exact ⟨_, Response.invalid, step_of_reservedOpcode s c rest op hs hd, rfl, rfl, by simp, by simp, by simp⟩
  | instr i =>
    rw [step_of_instr s c rest i hs hd]
    by_cases hi : causes i = []
    · obtain ⟨out, ctx, he, hout⟩ := exec_of_no_cause i { s with input := rest } hi
      have hop : i.opcode = c.header := congrArg Command.header (encode_of_decode c i hd)
      exact ⟨_, { code := .ok, out := out }, he, rfl, rfl, by simp [hi], by simp [hout, hop], by simp⟩
    · exact ⟨_, Response.invalid, exec_of_cause i _ hi, rfl, rfl, by simp [hi], by simp, by simp⟩

/-- Settles O41: a header from 0x03 on decodes as reserved, and the step that takes a reserved opcode takes the exception. -/
theorem reservedOpcodeIsEinval : Obligations.ReservedOpcodeIsEinval := by
  intro s c rest hs h3
  obtain ⟨op, hd⟩ := decode_of_three_le c h3
  exact step_of_reservedOpcode s c rest op hs hd

namespace Asm

/-- An operand with bytes supplies its frame (R53). -/
theorem supplied_bytes (b : Frame) (rest : List Operand) : supplied (.bytes b :: rest) = b :: supplied rest := rfl

/-- An absent operand supplies nothing, and neither do those after it (R53). -/
theorem supplied_absent (rest : List Operand) : supplied (.absent :: rest) = [] := rfl

/-- No operands supply no frames. -/
theorem supplied_nil : supplied [] = [] := rfl

end Asm

/-- Settles O52: the expansions carry the frames their operands supply. -/
theorem pseudoInstructionsExpand : Obligations.PseudoInstructionsExpand := by
  intro X Y y
  simp only [Asm.enc, Asm.dec, Asm.newctx, Asm.supplied_bytes, Asm.supplied_absent, Asm.supplied_nil, and_self]

end Sys2Proof.Machine
end

section
/-! PROOFS. The micro-operations before the warm-up: the constants `SEED` writes, the lanes `ABSORB` folds its bytes onto, and
the two cases of `DERIVE`. -/

namespace Sys2Proof.Machine

/-! ## SEED -/

/-- The seed index by R60's formula, the shift written as a product and the truncation by its definition. -/
theorem seedIndex_eq (lenw : LenWidth) (KL i : Nat) :
    seedIndex lenw KL i = truncLen lenw (truncLen lenw (KL * 2 ^ 21) * (i + 1)) % 24 := by
  rw [seedIndex, Nat.shiftLeft_eq]

/-- The word `SEED` writes is the constant at the truncated product; the table takes it modulo 24 (R17, R60). -/
theorem seed_get (cfg : Config) (KL : Nat) (c : Context) (i : Fin 16) :
    (seed cfg KL c).S[i] = getK cfg (truncLen cfg.LENW (truncLen cfg.LENW (KL * 2 ^ 21) * (i.val + 1))) := by
  rw [seed_S, seedWords_get, seedIndex_eq, getK_mod]

/-- Settles O10: the three formulas are `seed_get` with the truncation of each `LENW`. -/
theorem seedWritesTheIndexedConstants : Obligations.SeedWritesTheIndexedConstants := by
  intro cfg KL c i
  refine ⟨fun h => ?w32, fun h => ?w64, fun h => ?unbounded, seed_M c cfg KL, seed_MI c cfg KL⟩
  all_goals rw [seed_get, h]; rfl

/-! ## ABSORB -/

/-- Exclusive-oring a byte into a lane exclusive-ors it onto that byte of the word (R31). -/
theorem byteOf_xorLane_same (order : ByteOrder) (k : Fin 4) (b : Byte) (w : Word) :
    byteOf order k (xorLane order k b w) = byteOf order k w ^^^ b := by
  refine BitVec.eq_of_getLsbD_eq fun i hi => ?_
  have hlt : laneShift order k + i < 32 := by have := laneShift_le order k; omega
  rw [BitVec.getLsbD_xor, byteOf_bit _ _ _ _ hi, byteOf_bit _ _ _ _ hi, xorLane_bit _ _ _ _ _ hlt]
  simp

/-- Exclusive-oring a byte into a lane leaves the other bytes of the word (R31): a bit of another lane lies below the lane, or
past the eight bits of the byte. -/
theorem byteOf_xorLane_of_ne (order : ByteOrder) (k k' : Fin 4) (b : Byte) (w : Word) (h : k' ≠ k) :
    byteOf order k' (xorLane order k b w) = byteOf order k' w := by
  refine BitVec.eq_of_getLsbD_eq fun i hi => ?_
  have hlt : laneShift order k' + i < 32 := by have := laneShift_le order k'; omega
  rw [byteOf_bit _ _ _ _ hi, byteOf_bit _ _ _ _ hi, xorLane_bit _ _ _ _ _ hlt]
  obtain habove | hbelow := laneShift_apart order k k' h
  · have hpast : 8 ≤ laneShift order k' + i - laneShift order k := by omega
    simp [BitVec.getLsbD_of_ge b _ hpast]
  · have hnot : ¬ laneShift order k ≤ laneShift order k' + i := by omega
    simp [hnot]

/-- Lane `k` of word `w` is the one byte number `j` goes to exactly when `j` is `4w + k` modulo 64 (R63). -/
theorem lane_of_byte_iff (j : Nat) (w : Fin 16) (k : Fin 4) :
    j % 64 = 4 * w.val + k.val ↔ w = sIdx (j / 4) ∧ k = Fin.ofNat 4 j := by
  simp only [Fin.ext_iff, Fin.val_ofNat]
  omega

/-- One absorbed byte is exclusive-ored onto its own lane and onto no other (R63). -/
theorem byteOf_absorbByte (order : ByteOrder) (j : Nat) (b : Byte) (S : StateArray) (w : Fin 16) (k : Fin 4) :
    byteOf order k (absorbByte order j b S)[w] =
      byteOf order k S[w] ^^^ (if j % 64 = 4 * w.val + k.val then b else 0#8) := by
  rw [absorbByte, getS_set]
  by_cases hw : w = sIdx (j / 4)
  · by_cases hk : k = Fin.ofNat 4 j
    · rw [if_pos hw, if_pos ((lane_of_byte_iff j w k).2 ⟨hw, hk⟩), hw, hk, byteOf_xorLane_same]
    · have hlane : ¬ j % 64 = 4 * w.val + k.val := fun h => hk ((lane_of_byte_iff j w k).1 h).2
      rw [if_pos hw, if_neg hlane, hw, byteOf_xorLane_of_ne _ _ _ _ _ hk, BitVec.xor_zero]
  · have hlane : ¬ j % 64 = 4 * w.val + k.val := fun h => hw ((lane_of_byte_iff j w k).1 h).1
    rw [if_neg hw, if_neg hlane, BitVec.xor_zero]

/-- Absorbing bytes numbered from `j` on exclusive-ors onto each lane what they fold onto it (R63). -/
theorem byteOf_absorbFrom (order : ByteOrder) (w : Fin 16) (k : Fin 4) (F : Frame) (j : Nat) (S : StateArray) :
    byteOf order k (absorbFrom order j F S)[w] = byteOf order k S[w] ^^^ laneFoldFrom (4 * w.val + k.val) j F := by
  induction F generalizing j S with
  | nil => rw [absorbFrom, laneFoldFrom, BitVec.xor_zero]
  | cons b rest ih => rw [absorbFrom, laneFoldFrom, ih, byteOf_absorbByte, BitVec.xor_assoc]

/-- Settles O12: a whole frame is absorbed from byte number 0, and `M` and `MI` are not part of the fold. -/
theorem absorbFoldsEveryLane : Obligations.AbsorbFoldsEveryLane := fun cfg F c =>
  ⟨fun w k => byteOf_absorbFrom cfg.BYTE_ORDER w k F 0 c.S, absorb_M c cfg F, absorb_MI c cfg F⟩

/-! ## DERIVE -/

/-- With `MI = 1` the deriver is skipped (R66). -/
theorem derive_of_MI (cfg : Config) (c : Context) (h : c.MI = true) : derive cfg c = c := if_pos h

/-- With `MI = 0` the matrix state is what the deriver's body leaves (R66). -/
theorem derive_M_of_not_MI (cfg : Config) (c : Context) (h : c.MI = false) :
    (derive cfg c).M = deriveCells cfg c.S c.M := by
  rw [derive, if_neg (by simp [h]), raiseMI_M]

/-- Settles O15: `derive_of_MI` for a raised flag, the deriver's body word by word for a lowered one. -/
theorem deriveFillsTheLiveWordsOnce : Obligations.DeriveFillsTheLiveWordsOnce := by
  refine fun cfg c => ⟨derive_of_MI cfg c, fun h => ⟨fun r x hx => ?live, derive_pad cfg c, derive_S cfg c, derive_MI cfg c⟩⟩
  case live =>
    rw [derive_M_of_not_MI cfg c h, getM_deriveCells, if_neg hx]
    rfl

end Sys2Proof.Machine
end

section
/-! PROOFS. The diffusion engine, bottom-up: the statements of `MIX` on the words of the array, the four calls of a round, the
rows the copy-back writes, and a pass as a fold over its outer iterations. -/

namespace Sys2Proof.Machine

/-! ## MIX -/

/-- The words of `S`, one for each location, are the function `f`. -/
def WordsAre (S : StateArray) (f : Fin 16 → Word) : Prop := ∀ x : Fin 16, S[x] = f x

/-- A statement whose right-hand side is `v` and whose target is `x` updates the words at `x` (R8). -/
theorem WordsAre.of_write {S S' : StateArray} {f : Fin 16 → Word} (h : WordsAre S f) (x : Fin 16) (v : Word)
    (hw : ∀ j : Fin 16, S'[j] = if j = x then v else S[j]) : WordsAre S' (Function.update f x v) := fun j => by
  rw [hw j, Function.update_apply, h j]

/-- `x <- x + p + y` on the words. -/
theorem WordsAre.mixAdd {S : StateArray} {f : Fin 16 → Word} (h : WordsAre S f) (x : Fin 16) (p : Word) (y : Fin 16) :
    WordsAre (mixAdd x p y S) (Function.update f x (f x + p + f y)) := by
  rw [← h x, ← h y]
  exact h.of_write x _ fun j => mixAdd_get S x y j p

/-- `x <- x ^ y` on the words. -/
theorem WordsAre.mixXor {S : StateArray} {f : Fin 16 → Word} (h : WordsAre S f) (x y : Fin 16) :
    WordsAre (mixXor x y S) (Function.update f x (f x ^^^ f y)) := by
  rw [← h x, ← h y]
  exact h.of_write x _ fun j => mixXor_get S x y j

/-- `x <- rotl(y + p, n)` on the words. -/
theorem WordsAre.mixRot {S : StateArray} {f : Fin 16 → Word} (h : WordsAre S f) (x y : Fin 16) (p : Word) (n : Nat) :
    WordsAre (mixRot x y p n S) (Function.update f x (rotl (f y + p) n)) := by
  rw [← h y]
  exact h.of_write x _ fun j => mixRot_get S x y j p n

/-- Settles O18: each statement updates the words the statements before it left, wherever the four locations fall. -/
theorem mixRunsSixteenStatementsOnLocations : Obligations.MixRunsSixteenStatementsOnLocations := by
  intro a b c d p1 p2 S f0 f1 f2 f3 f4 f5 f6 f7 f8 f9 f10 f11 f12 f13 f14 f15 f16
  have h0 : WordsAre S f0 := fun x => rfl
  have h1 : WordsAre _ f1 := h0.mixAdd a p2 b
  have h2 : WordsAre _ f2 := h1.mixXor b a
  have h3 : WordsAre _ f3 := h2.mixRot b b p1 5
  have h4 : WordsAre (mix1 a b p1 p2 S) f4 := h3.mixRot a a p1 11
  have h5 : WordsAre _ f5 := h4.mixAdd c p1 d
  have h6 : WordsAre _ f6 := h5.mixXor d c
  have h7 : WordsAre _ f7 := h6.mixRot d d p2 12
  have h8 : WordsAre (mix2 c d p1 p2 _) f8 := h7.mixRot c c p2 15
  have h9 : WordsAre _ f9 := h8.mixAdd a p1 b
  have h10 : WordsAre _ f10 := h9.mixXor b a
  have h11 : WordsAre _ f11 := h10.mixRot b b p2 14
  have h12 : WordsAre (mix3 a b p1 p2 _) f12 := h11.mixRot a a p2 25
  have h13 : WordsAre _ f13 := h12.mixAdd c p2 d
  have h14 : WordsAre _ f14 := h13.mixXor d c
  have h15 : WordsAre _ f15 := h14.mixRot d c p1 7
  have h16 : WordsAre (mix a b c d p1 p2 S) f16 := h15.mixRot c c p1 30
  exact h16

/-! ## ROUND -/

/-- Settles O24: `round` composes `call1` to `call4`, and each call is `MIX` at the locations and parameters listed. -/
theorem roundRunsTheFourCalls : Obligations.RoundRunsTheFourCalls := by
  intro i M S S1 S2 S3 S4
  have h1 : call1 i M S = S1 := rfl
  have h2 : call2 i M S1 = S2 := rfl
  have h3 : call3 i M S2 = S3 := rfl
  have h4 : call4 i M S3 = S4 := rfl
  rw [Machine.round, h1, h2, h3, h4]

/-! ## COPYBACK -/

/-- The shift of the column and row references is a product by 4. -/
theorem quarterShift_mul (n : Nat) : n <<< Lit.quarterShift = 4 * n :=
  (Nat.shiftLeft_eq n 2).trans (Nat.mul_comm n 4)

/-- The column reference as a number (R75). -/
theorem colidx_val (i : Nat) (q : Fin 4) : (colidx i q).val = 4 * (i % 4) + q.val := by
  rw [colidx, sIdx_val, quarterMask_mod, quarterShift_mul]
  omega

/-- The row reference as a number (R75). -/
theorem rowidx_val (i : Nat) (q : Fin 4) : (rowidx i q).val = 4 * q.val + i % 4 := by
  rw [rowidx, sIdx_val, quarterMask_mod, quarterShift_mul]
  omega

/-- In quarter `i mod 4` the column and the row reference are one location (R76). -/
theorem colidx_eq_rowidx (i : Nat) (q : Fin 4) (h : q.val = i % 4) : colidx i q = rowidx i q := by
  apply Fin.ext
  rw [colidx_val, rowidx_val, h, Nat.add_comm]

/-- The column slot of a row after the copy-back (R82). -/
theorem copyback_col (i : Nat) (S : StateArray) (M : MatrixState) (q : Fin 4) :
    getM (copyback i S M) q 0 = S[colidx i q] := by
  simp [getM_copyback, getM_copyRow]

/-- The row slot of a row after the copy-back (R82). -/
theorem copyback_row (i : Nat) (S : StateArray) (M : MatrixState) (q : Fin 4) :
    getM (copyback i S M) q 1 = S[rowidx i q] := by
  simp [getM_copyback, getM_copyRow]

/-- The diagonal slot of a row after the copy-back (R82). -/
theorem copyback_dia (i : Nat) (S : StateArray) (M : MatrixState) (q : Fin 4) :
    getM (copyback i S M) q 2 = S[diaidx i q] := by
  simp [getM_copyback, getM_copyRow]

/-- Settles O25: the four slots of the row, and the one location that both references of quarter `i mod 4` name. -/
theorem copybackOverwritesLiveWords : Obligations.CopybackOverwritesLiveWords := by
  intro i S M q
  refine ⟨copyback_col i S M q, copyback_row i S M q, copyback_dia i S M q, copyback_pad i S M q, fun hq => ?_⟩
  simp only [copyback_col, copyback_row, colidx_eq_rowidx i q hq]

/-! ## OUTER and DIFFUSE -/

/-- The rounds of an outer iteration are three (R81). -/
theorem rounds_three (i : Nat) (M : MatrixState) (S : StateArray) :
    rounds i M Lit.rounds S = Machine.round i M (Machine.round i M (Machine.round i M S)) := by
  simp only [rounds]

/-- The first `n` outer iterations are the fold of `OUTER` over `0, …, n - 1` (R83). -/
theorem outerFrom_zero_eq_foldl (n : Nat) (c : Context) :
    outerFrom 0 n c = (List.range n).foldl (fun c i => outer i c) c := by
  induction n with
  | zero => rfl
  | succ n ih => rw [outerFrom_succ, Nat.zero_add, ih, List.range_succ, List.foldl_append, List.foldl_cons, List.foldl_nil]

/-- Settles O26: `OUTER` by its three rounds, `DIFFUSE` by induction on the number of iterations. -/
theorem passRunsTheOuterIterations : Obligations.PassRunsTheOuterIterations := by
  refine ⟨fun i c => ?outer, fun cfg c => outerFrom_zero_eq_foldl (4 * cfg.MULT) c⟩
  case outer => simp only [outer, rounds_three]

end Sys2Proof.Machine
end

section
/-! PROOFS. The keystream driver: the counter step, the padded view byte by byte, and the `PROC`s of a message in pieces, whose
output, processed from the same context, is the message again. -/

namespace Sys2Proof.Machine

/-! ## CTRADD -/

/-- Settles O28: the one word `CTRADD` sets, and the words a write of `S` leaves. -/
theorem counterStepChangesOnlyTheLastWord : Obligations.CounterStepChangesOnlyTheLastWord := by
  refine fun BC c => ⟨?last, fun i hi => ?others, ctrAdd_M c BC, ctrAdd_MI c BC⟩
  case last =>
    have hmod : BitVec.ofNat 32 (BC % 2 ^ 32) = BitVec.ofNat 32 BC := BitVec.eq_of_toNat_eq (by simp)
    rw [hmod, ctrAdd_S, Vector.getElem_set_self]
  case others =>
    have hne : i ≠ 15 := fun h => hi (congrArg Fin.val h)
    rw [ctrAdd_S]
    exact (getS_set c.S 15 i _).trans (if_neg hne)

/-! ## KSVIEW -/

/-- Where every member of a list contributes `n` items, item `j` of member `i` stands at place `n * i + j`. -/
theorem flatMap_get {α β : Type} (f : α → List β) (n : Nat) (hf : ∀ a, (f a).length = n) (l : List α) (i j : Nat)
    (hj : j < n) : (l.flatMap f)[n * i + j]? = l[i]?.bind fun a => (f a)[j]? := by
  induction l generalizing i with
  | nil => rfl
  | cons a l ih =>
    rw [List.flatMap_cons]
    cases i with
    | zero =>
      rw [Nat.mul_zero, Nat.zero_add, List.getElem?_append_left (by rw [hf]; exact hj)]
      rfl
    | succ i =>
      have hplace : n * (i + 1) + j = n + (n * i + j) := by rw [Nat.mul_succ]; omega
      rw [List.getElem?_append_right (by rw [hf]; omega), hf, hplace, Nat.add_sub_cancel_left, ih]
      rfl

/-- Place `k` of the row of quarters is `k`. -/
theorem quads_get (k : Fin 4) : quads[k.val]? = some k := by
  fin_cases k <;> rfl

/-- The padded view byte by byte: 16 bytes for each row, 4 in it for each slot (R96). -/
theorem paddedView_get (order : ByteOrder) (M : MatrixState) (r x k : Fin 4) :
    (paddedView order M)[16 * r.val + 4 * x.val + k.val]? = some (byteOf order k (getM M r x)) := by
  have hslot : ∀ r x : Fin 4, (quads.map fun k => byteOf order k (getM M r x)).length = 4 := fun _ _ => rfl
  have hrow : ∀ r : Fin 4, (quads.flatMap fun x => quads.map fun k => byteOf order k (getM M r x)).length = 16 :=
    fun _ => rfl
  rw [paddedView, Nat.add_assoc, flatMap_get _ 16 hrow _ _ _ (by omega), quads_get, Option.bind_some,
    flatMap_get _ 4 (hslot r) _ _ _ k.isLt, quads_get, Option.bind_some, List.getElem?_map, quads_get, Option.map_some]

/-- Under little-endian lanes byte `k` of a word is its bits from `8k` on (R31). -/
theorem byteOf_little (k : Fin 4) (w : Word) : byteOf .little k w = w.extractLsb' (8 * k.val) 8 :=
  BitVec.setWidth_ushiftRight_eq_extractLsb

/-- Settles O29: the view an engine with `KSVIEW = padded` takes is `paddedView`. -/
theorem keystreamViewIsRowMajor : Obligations.KeystreamViewIsRowMajor := by
  intro cfg M hpad
  have hview : ksView cfg M = paddedView cfg.BYTE_ORDER M := by rw [ksView, hpad]
  refine ⟨ksView_length cfg M, fun r x k => ⟨?_, fun hlittle => ?_⟩⟩
  · rw [hview, paddedView_get]
  · rw [hview, paddedView_get, hlittle, byteOf_little]

/-! ## One piece of a message

`procLoop` on the empty frame is no turn at all, so what a `PROC` outputs and the context it leaves are said of every piece,
the empty one included, whose `PROC` is an invalid argument. -/

/-- A `PROC` of one frame leaves the loop's context, and its answer is the one for the loop's output (R113, R114). -/
theorem exec_proc_piece (s : State) (d : Frame) :
    exec (.proc [d]) s = .next { s with
      ctx := (procLoop s.cfg d s.ctx).ctx
      responses := s.responses ++ [Response.forBytes (procLoop s.cfg d s.ctx).OUT] } := by
  obtain ⟨DATA, hf, hd, he⟩ | ⟨hne, he⟩ := execProc_cases s [d]
  case inl =>
    obtain rfl : d = DATA := List.singleton_inj.1 hf
    have hout : (procLoop s.cfg d s.ctx).OUT ≠ [] := fun h =>
      hd (List.length_eq_zero_iff.1 ((procLoop_spec s.cfg d s.ctx).2.1.symm.trans (congrArg List.length h)))
    rw [Response.forBytes, if_neg hout]
    exact he
  case inr =>
    obtain rfl : d = [] := by_contra fun hd => hne ((procCauses_eq_nil [d]).2 ⟨d, rfl, hd⟩)
    exact he

/-- Two frames of one length, processed from one context, leave one context (R102). -/
theorem procLoop_ctx_of_length (cfg : Config) (c : Context) {d d' : Frame} (h : d.length = d'.length) :
    (procLoop cfg d c).ctx = (procLoop cfg d' c).ctx := by
  rw [(procLoop_spec cfg d c).1, (procLoop_spec cfg d' c).1, h]

/-- Processing the output of a frame, from the context the frame was processed from, gives the frame: `(x ^ k) ^ k = x`
(R103). -/
theorem procLoop_out_out (cfg : Config) (d : Frame) (c : Context) :
    (procLoop cfg (procLoop cfg d c).OUT c).OUT = d := by
  obtain ⟨-, hlen, hbyte⟩ := procLoop_spec cfg d c
  obtain ⟨-, hlen', hbyte'⟩ := procLoop_spec cfg (procLoop cfg d c).OUT c
  refine List.ext_getElem (hlen'.trans hlen) fun j hj' hj => Option.some.inj ?_
  rw [← List.getElem?_eq_getElem hj', hbyte' j (hlen.symm ▸ hj), List.getD, hbyte j hj, List.getD,
    List.getElem?_eq_getElem hj, Option.getD_some, Option.getD_some, xor_cancel_right]

/-! ## A message in pieces -/

/-- The context after the `PROC`s of the pieces, one after another. -/
def ctxAfter (cfg : Config) (c : Context) (pieces : List Frame) : Context :=
  pieces.foldl (fun c d => (procLoop cfg d c).ctx) c

/-- What the `PROC`s of the pieces output. -/
def outputs (cfg : Config) : Context → List Frame → List Frame
  | _, [] => []
  | c, d :: ds => (procLoop cfg d c).OUT :: outputs cfg (procLoop cfg d c).ctx ds

/-- Every piece is as long as its output. -/
theorem outputs_lengths (cfg : Config) (c : Context) (pieces : List Frame) :
    (outputs cfg c pieces).map List.length = pieces.map List.length := by
  induction pieces generalizing c with
  | nil => rfl
  | cons d ds ih => rw [outputs, List.map_cons, List.map_cons, ih, (procLoop_spec cfg d c).2.1]

/-- The outputs, processed from the same context, are the pieces (R103). -/
theorem outputs_outputs (cfg : Config) (c : Context) (pieces : List Frame) :
    outputs cfg c (outputs cfg c pieces) = pieces := by
  induction pieces generalizing c with
  | nil => rfl
  | cons d ds ih =>
    rw [outputs, outputs, procLoop_out_out, procLoop_ctx_of_length cfg c (procLoop_spec cfg d c).2.1, ih]

/-- An instruction at the front of the host's moves is what the step runs. -/
theorem step_issue (s : State) (i : Instr) (rest : List HostMove) (h : s.input = issue i :: rest) :
    step s = exec i { s with input := rest } :=
  step_of_instr s (encode i) rest i h (by cases i <;> rfl)

/-- A valid `INIT` runs its micro-operations on the context and answers `OK` (R111). -/
theorem exec_init_valid (s : State) {KEY NONCE : Frame} (hk : KEY ≠ []) (hn : NONCE.length = 12) :
    exec (.init [KEY, NONCE]) s = .next (respondOk none { s with ctx := initContext s.cfg KEY NONCE s.ctx }) := by
  rw [exec, execInit, initOperands_valid KEY NONCE hk hn]

/-- A run over the pieces gives an answer for each output, and takes no move past them (R113, R144). -/
theorem run_pieces (s : State) (pieces : List Frame) (rest : List HostMove)
    (h : s.input = pieces.map (fun d => issue (.proc [d])) ++ rest) :
    core.run pieces.length s = .next { s with
      ctx := ctxAfter s.cfg s.ctx pieces
      input := rest
      responses := s.responses ++ (outputs s.cfg s.ctx pieces).map Response.forBytes } := by
  induction pieces generalizing s with
  | nil =>
    obtain rfl : s.input = rest := h
    rw [outputs, List.map_nil, List.append_nil]
    rfl
  | cons d ds ih =>
    rw [List.length_cons, run_succ s _ _ ((step_issue s _ _ h).trans (exec_proc_piece _ d)), ih _ rfl, outputs, List.map_cons,
      List.append_assoc]
    rfl

/-- A run over a whole message begins its pieces on the context that `INIT` leaves of the cleared one, whatever the context
was (R142). -/
theorem run_message (s : State) (KEY NONCE : Frame) (pieces : List Frame) (rest : List HostMove) (hk : KEY ≠ [])
    (hn : NONCE.length = 12) (h : s.input = message KEY NONCE pieces ++ rest) :
    core.run (pieces.length + 2) s = .next { s with
      ctx := ctxAfter s.cfg (initContext s.cfg KEY NONCE Context.zero) pieces
      input := rest
      responses := s.responses ++ [Response.okNone, Response.okNone] ++
        (outputs s.cfg (initContext s.cfg KEY NONCE Context.zero) pieces).map Response.forBytes } := by
  rw [run_succ s _ _ ((step_issue s _ _ h).trans (exec_clear_nil _)),
    run_succ _ _ _ ((step_issue _ (.init [KEY, NONCE]) _ rfl).trans (exec_init_valid _ hk hn)),
    run_pieces _ pieces rest rfl]
  simp only [respondOk_responses, zeroContext_responses, List.append_assoc, List.cons_append, List.nil_append]
  rfl

/-- Settles O38: both engines begin their pieces on one context, from which the outputs of the outputs are the pieces. -/
theorem roundTripRecoversTheMessage : Obligations.RoundTripRecoversTheMessage := by
  intro s KEY NONCE pieces rest hk hn hs
  refine ⟨_, outputs s.cfg (initContext s.cfg KEY NONCE Context.zero) pieces, run_message s KEY NONCE pieces rest hk hn hs,
    rfl, outputs_lengths _ _ _, fun s' rest' hcfg hs' => ?_⟩
  refine ⟨_, run_message s' KEY NONCE _ rest' hk hn hs', ?_⟩
  rw [hcfg, outputs_outputs]

end Sys2Proof.Machine
end

section
/-! PROOFS. The three commands: the next state of each where it is valid, and the frames under which it is not. -/

namespace Sys2Proof.Machine

/-! ## CLEAR -/

/-- `CLEAR` with any frame is an invalid argument (R110). -/
theorem exec_clear_of_ne_nil (s : State) {frames : List Frame} (h : frames ≠ []) :
    exec (.clear frames) s = .next (raiseInvalidArgument s) :=
  exec_of_cause (.clear frames) s ((clearCauses_eq_nil frames).not.2 h)

/-- Settles O3: the two ways a `CLEAR` ends, each an update of the fields the statement names. -/
theorem clearZeroFillsOrRejectsFrames : Obligations.ClearZeroFillsOrRejectsFrames := by
  refine fun s frames => ⟨fun hnil => ?valid, fun hframes => ?invalid⟩
  case valid =>
    subst hnil
    exact exec_clear_nil s
  case invalid => exact exec_clear_of_ne_nil s hframes

/-! ## INIT -/

/-- Settles O5: `initContext` is the five micro-operations in the order of R111. -/
theorem initRunsItsMicroOperationsInOrder : Obligations.InitRunsItsMicroOperationsInOrder :=
  fun s _ _ hk hn => exec_init_valid s hk hn

/-- `INIT` meets a cause exactly when one of R112 (a) to (e) holds of its frames. -/
theorem initCauses_ne_nil (frames : List Frame) :
    initCauses frames ≠ [] ↔
      frames[0]? = none ∨ frames[1]? = none ∨ frames[0]? = some [] ∨
        (∃ NONCE, frames[1]? = some NONCE ∧ NONCE.length ≠ 12) ∨ 2 < frames.length := by
  rw [Ne, initCauses_eq_nil]
  match frames with
  | [] => simp
  | [_] => simp
  | [_, _] => simp [imp_iff_not_or]
  | _ :: _ :: _ :: _ => simp

/-- Settles O6: the conditions of R112 are the causes of `INIT`; with one the exception is taken, with none the answer is
`OK`. -/
theorem initInvalidExactlyWhen : Obligations.InitInvalidExactlyWhen := by
  refine fun s frames => ⟨fun hinvalid => ?invalid, fun hvalid => ?valid⟩
  case invalid => exact exec_of_cause (.init frames) s ((initCauses_ne_nil frames).2 hinvalid)
  case valid =>
    obtain ⟨KEY, NONCE, -, -, -, he⟩ | ⟨hcause, -⟩ := execInit_cases s frames
    · exact ⟨_, he, rfl⟩
    · exact absurd ((initCauses_ne_nil frames).1 hcause) hvalid

/-! ## PROC -/

/-- A valid `PROC` leaves the loop's context and answers `OK` with the loop's output (R113). -/
theorem exec_proc_valid (s : State) {DATA : Frame} (hd : DATA ≠ []) :
    exec (.proc [DATA]) s = .next (respondOk (some (procLoop s.cfg DATA s.ctx).OUT)
      { s with ctx := (procLoop s.cfg DATA s.ctx).ctx }) := by
  rw [exec, execProc, procOperand_valid DATA hd]

/-- Settles O30: what the loop of `PROC` leaves and outputs is `procLoop_spec`; its blocks keep `MI`. -/
theorem procXorsOneViewPerBlock : Obligations.ProcXorsOneViewPerBlock := by
  intro s DATA hd
  obtain ⟨hctx, hlen, hbyte⟩ := procLoop_spec s.cfg DATA s.ctx
  refine ⟨(procLoop s.cfg DATA s.ctx).OUT, ?_, afterBlocks_MI s.cfg s.ctx _, hlen, hbyte⟩
  rw [exec_proc_valid s hd, hctx]
  rfl

/-- `PROC` meets a cause exactly when one of R114 (a) to (c) holds of its frames. -/
theorem procCauses_ne_nil (frames : List Frame) :
    procCauses frames ≠ [] ↔ frames[0]? = none ∨ frames[0]? = some [] ∨ 1 < frames.length := by
  rw [Ne, procCauses_eq_nil]
  match frames with
  | [] => simp
  | [_] => simp
  | _ :: _ :: _ => simp

/-- Settles O31: the conditions of R114 are the causes of `PROC`; with one the exception is taken, with none the loop's
output is the answer's. -/
theorem procInvalidExactlyWhen : Obligations.ProcInvalidExactlyWhen := by
  refine fun s frames => ⟨fun hinvalid => ?invalid, fun hvalid => ?valid⟩
  case invalid => exact exec_of_cause (.proc frames) s ((procCauses_ne_nil frames).2 hinvalid)
  case valid =>
    obtain ⟨DATA, -, -, he⟩ | ⟨hcause, -⟩ := execProc_cases s frames
    · exact ⟨_, _, he, rfl⟩
    · exact absurd ((procCauses_ne_nil frames).1 hcause) hvalid

end Sys2Proof.Machine
end

section
/-! PROOFS. The exception: a command that raises `InvalidArgument` is taken and answered, and nothing else. -/

namespace Sys2Proof.Machine

/-- Settles O40: with a cause or a reserved opcode the step takes the exception, which appends `Response.invalid` alone; without
a cause the instruction ends in `respondOk`. -/
theorem invalidArgumentIsANoOp : Obligations.InvalidArgumentIsANoOp := by
  refine fun s c rest hs => ⟨?invalid, fun i hd hvalid => ?valid⟩
  case invalid =>
    rintro (⟨i, hd, hcause⟩ | ⟨op, hd⟩)
    · exact (step_of_instr s c rest i hs hd).trans (exec_of_cause i _ hcause)
    · exact step_of_reservedOpcode s c rest op hs hd
  case valid =>
    obtain ⟨out, ctx, he, -⟩ := exec_of_no_cause i { s with input := rest } hvalid
    exact ⟨_, { code := .ok, out := out }, (step_of_instr s c rest i hs hd).trans he, rfl, rfl⟩

end Sys2Proof.Machine
end

section
/-! PROOFS. The round trip of decoder and encoder, and the steps whose next state is written out: the waiting one, the reset
pulse, the decoded command, and `CLEAR`, after which the old context is gone. -/

namespace Sys2Proof

/-! ## Decoding and encoding -/

/-- The wire form of an instruction decodes to it, with its frames (R47). -/
theorem decode_encode (i : Instr) : decode (encode i) = .instr i := by
  cases i <;> rfl

/-- Two instructions with one wire form are one instruction. -/
theorem encode_injective : Function.Injective encode := fun i j h =>
  Decoded.instr.inj (by rw [← decode_encode i, ← decode_encode j, h])

/-- A reserved header is none of the three opcodes (R50). -/
theorem three_le_of_decode (c : Command) (op : Byte) (h : decode c = .reservedOpcode op) : 3 ≤ c.header.toNat := by
  simp only [decode] at h
  split_ifs at h with h0 h1 h2
  bv_omega

/-- Settles O51: `decode_encode` one way, `encode_of_decode` the other, and the headers that no instruction has. -/
theorem decodeAndEncodeAgree : Obligations.DecodeAndEncodeAgree :=
  ⟨decode_encode, encode_of_decode, fun c => ⟨fun ⟨op, h⟩ => three_le_of_decode c op h, decode_of_three_le c⟩⟩

/-- Settles O50: the first three commands are the wire forms of their instructions; the header of the fourth is none of the
opcodes. -/
theorem opcodesDecodeToTheirCommands : Obligations.OpcodesDecodeToTheirCommands :=
  ⟨decode_encode (.clear []), decode_encode (.init [[0x01#8], List.replicate 12 0x00#8]),
    decode_encode (.proc [[0xAB#8, 0xCD#8]]), by decide⟩

end Sys2Proof

namespace Sys2Proof.Machine

/-! ## Steps written out -/

/-- Settles O48: without a move the fetch finds the engine waiting. -/
theorem waitingChangesNothing : Obligations.WaitingChangesNothing := by
  intro s hs
  simp only [step, fetch, hs]

/-- Settles O2: the pulse resets the engine, and `resetEngine` writes the context alone. -/
theorem resetPulseAnswersNothing : Obligations.ResetPulseAnswersNothing := step_of_reset

/-- Settles O49: a command that decodes is run on the state with the command taken. -/
theorem stepRunsTheDecodedCommand : Obligations.StepRunsTheDecodedCommand := step_of_instr

/-- Settles O4: the states after the first step, whose contexts are both the zero-filled one, are already equal. -/
theorem clearForgetsTheContext : Obligations.ClearForgetsTheContext := by
  intro s c rest n hs
  have hstep : ∀ c, step { s with ctx := c } = .next (respondOk none (zeroContext { s with input := rest })) := fun c =>
    (step_issue { s with ctx := c } (.clear []) rest hs).trans (exec_clear_nil _)
  exact (run_succ s n _ (hstep s.ctx)).trans (run_succ { s with ctx := c } n _ (hstep c)).symm

end Sys2Proof.Machine
end

section
/-! PROOFS. What every step keeps: an inversion of one instruction and of one step, which say what either can do to the
context, and the invariants read off from them. -/

namespace Sys2Proof.Machine

/-! ## What one instruction and one move can do -/

/-- What an instruction can do to the context `c` of an engine: nothing where it meets a cause (R128), else its meaning. -/
inductive InstrCtx (cfg : Config) (c : Context) : Instr → Context → Prop where
  | invalid (i : Instr) (h : causes i ≠ []) : InstrCtx cfg c i c
  | clear : InstrCtx cfg c (.clear []) Context.zero
  | init (KEY NONCE : Frame) (hk : KEY ≠ []) (hn : NONCE.length = 12) :
      InstrCtx cfg c (.init [KEY, NONCE]) (initContext cfg KEY NONCE c)
  | proc (DATA : Frame) (hd : DATA ≠ []) : InstrCtx cfg c (.proc [DATA]) (procLoop cfg DATA c).ctx

/-- Every instruction answers a next state, which differs in the context and by one answer. -/
theorem exec_next (i : Instr) (s : State) :
    ∃ r ctx, exec i s = .next (respond r { s with ctx := ctx }) ∧ InstrCtx s.cfg s.ctx i ctx := by
  by_cases hi : causes i = []
  case neg => exact ⟨_, s.ctx, exec_of_cause i s hi, .invalid i hi⟩
  cases i with
  | clear frames =>
    obtain rfl := (clearCauses_eq_nil frames).1 hi
    exact ⟨_, _, exec_clear_nil s, .clear⟩
  | init frames =>
    obtain ⟨KEY, NONCE, rfl, hk, hn⟩ := (initCauses_eq_nil frames).1 hi
    exact ⟨_, _, exec_init_valid s hk hn, .init KEY NONCE hk hn⟩
  | proc frames =>
    obtain ⟨DATA, rfl, hd⟩ := (procCauses_eq_nil frames).1 hi
    exact ⟨_, _, exec_proc_valid s hd, .proc DATA hd⟩

/-- What a move of the host can do to the context: a pulse zero-fills it, a reserved opcode leaves it, and an instruction does
what it does. -/
inductive MoveCtx (cfg : Config) (c : Context) : HostMove → Context → Prop where
  | reset : MoveCtx cfg c .reset Context.zero
  | reserved (cmd : Command) (op : Byte) (h : decode cmd = .reservedOpcode op) : MoveCtx cfg c (.command cmd) c
  | instr (i : Instr) (c' : Context) (h : InstrCtx cfg c i c') : MoveCtx cfg c (issue i) c'

/-- Every step answers a next state: the engine waits, or it takes one move, gives at most one answer, and differs otherwise
in the context alone. -/
theorem step_next (s : State) :
    (s.input = [] ∧ step s = .next s) ∨
      ∃ m rest ctx, ∃ answer : Option Response, s.input = m :: rest ∧ MoveCtx s.cfg s.ctx m ctx ∧
        step s = .next { s with ctx := ctx, input := rest, responses := s.responses ++ answer.toList } := by
  obtain h | ⟨rest, hs, h⟩ | ⟨c, op, rest, hs, hd, h⟩ | ⟨c, i, rest, hs, hd, h⟩ := step_cases s
  case inl => exact .inl h
  case inr.inl => exact .inr ⟨_, rest, _, none, hs, .reset, by rw [h, Option.toList_none, List.append_nil]; rfl⟩
  case inr.inr.inl => exact .inr ⟨_, rest, _, some Response.invalid, hs, .reserved c op hd, h⟩
  case inr.inr.inr =>
    obtain ⟨r, ctx, he, hctx⟩ := exec_next i { s with input := rest }
    rw [← encode_of_decode c i hd] at hs
    exact .inr ⟨_, rest, ctx, some r, hs, .instr i ctx hctx, h.trans he⟩

/-! ## Pad slots -/

/-- No instruction but `CLEAR` without a frame changes a pad slot (R13). -/
theorem InstrCtx.pad_of_ne_clear {cfg : Config} {c c' : Context} {i : Instr} (h : InstrCtx cfg c i c') (hi : i ≠ .clear [])
    (r : Fin 4) : getM c'.M r 3 = getM c.M r 3 := by
  cases h with
  | invalid => rfl
  | clear => exact absurd rfl hi
  | init KEY NONCE => exact initContext_pad cfg KEY NONCE c r
  | proc DATA => rw [(procLoop_spec cfg DATA c).1, afterBlocks_pad]

/-- Pad slots that are zero stay zero under every move: `CLEAR` and the pulse zero them, the rest keeps them. -/
theorem MoveCtx.padZero {cfg : Config} {c c' : Context} {m : HostMove} (h : MoveCtx cfg c m c') (hc : padZero c.M) :
    padZero c'.M := fun r => by
  cases h with
  | reset => exact zero_M r 3
  | reserved => exact hc r
  | instr i _ hi =>
    by_cases hclear : i = .clear []
    · subst hclear
      cases hi with
      | invalid _ hcause => exact absurd ((clearCauses_eq_nil []).2 rfl) hcause
      | clear => exact zero_M r 3
    · rw [hi.pad_of_ne_clear hclear, hc r]

/-- Settles O46: a waiting step keeps the state; a move keeps zero pad slots by `MoveCtx.padZero` and the configuration as it
is. -/
theorem everyStepKeepsTheInvariant : Obligations.EveryStepKeepsTheInvariant := by
  rintro s ⟨hpad, hmult⟩
  obtain ⟨-, h⟩ | ⟨m, rest, ctx, answer, -, hctx, h⟩ := step_next s
  · exact ⟨s, h, hpad, hmult⟩
  · exact ⟨_, h, hctx.padZero hpad, hmult⟩

/-- Settles O45: neither an `INIT` nor a `PROC` is a `CLEAR`. -/
theorem initAndProcKeepThePadSlots : Obligations.InitAndProcKeepThePadSlots := by
  intro s frames r
  have keeps : ∀ i : Instr, i ≠ .clear [] → ∃ t, exec i s = .next t ∧ getM t.ctx.M r 3 = getM s.ctx.M r 3 := by
    intro i hi
    obtain ⟨_, ctx, he, hctx⟩ := exec_next i s
    exact ⟨_, he, hctx.pad_of_ne_clear hi r⟩
  exact ⟨keeps (.init frames) nofun, keeps (.proc frames) nofun⟩

/-- Settles O47: the zero-filled context has zero pad slots, and the engine's multiplier is 1. -/
theorem resetMeetsTheInvariant : Obligations.ResetMeetsTheInvariant := ⟨fun r => zero_M r 3, Nat.le_refl 1⟩

/-! ## No failure, and no write of the configuration -/

/-- Settles O42: both ways a step ends answer a next state, the second with the move taken and at most one answer. -/
theorem everyStepAnswersANextState : Obligations.EveryStepAnswersANextState := by
  intro s
  obtain ⟨-, h⟩ | ⟨m, rest, ctx, answer, hs, -, h⟩ := step_next s
  · exact ⟨s, h, .inl rfl, .inl rfl⟩
  · refine ⟨_, h, ?_, .inr ⟨m, hs⟩⟩
    cases answer with
    | none => exact .inl (List.append_nil _)
    | some r => exact .inr ⟨r, rfl⟩

/-- Settles O43: neither way a step ends writes the configuration. -/
theorem noStepWritesTheConfiguration : Obligations.NoStepWritesTheConfiguration := by
  intro s
  obtain ⟨-, h⟩ | ⟨m, rest, ctx, answer, -, -, h⟩ := step_next s
  · exact ⟨s, h, rfl⟩
  · exact ⟨_, h, rfl⟩

/-! ## The flag -/

/-- An instruction that raises `MI` is a valid `INIT` (R14). -/
theorem InstrCtx.raises {cfg : Config} {c c' : Context} {i : Instr} (h : InstrCtx cfg c i c') (h0 : c.MI = false)
    (h1 : c'.MI = true) : ∃ frames, i = .init frames ∧ initCauses frames = [] := by
  cases h with
  | invalid => simp [h0] at h1
  | clear => simp at h1
  | init KEY NONCE hk hn => exact ⟨_, rfl, (initCauses_eq_nil _).2 ⟨KEY, NONCE, rfl, hk, hn⟩⟩
  | proc DATA => simp [(procLoop_spec cfg DATA c).1, afterBlocks_MI, h0] at h1

/-- An instruction that lowers `MI` is `CLEAR` without a frame (R14). -/
theorem InstrCtx.lowers {cfg : Config} {c c' : Context} {i : Instr} (h : InstrCtx cfg c i c') (h1 : c.MI = true)
    (h0 : c'.MI = false) : i = .clear [] := by
  cases h with
  | invalid => simp [h1] at h0
  | clear => rfl
  | init KEY NONCE => simp [initContext_MI] at h0
  | proc DATA => simp [(procLoop_spec cfg DATA c).1, afterBlocks_MI, h1] at h0

/-- A valid `INIT` leaves `MI = 1` (R14). -/
theorem InstrCtx.init_MI {cfg : Config} {c c' : Context} {frames : List Frame} (h : InstrCtx cfg c (.init frames) c')
    (hvalid : initCauses frames = []) : c'.MI = true := by
  cases h with
  | invalid _ hcause => exact absurd hvalid hcause
  | init KEY NONCE => exact initContext_MI cfg KEY NONCE c

/-- A command that the host issues as an instruction does what the instruction does: the wire form determines it. -/
theorem MoveCtx.of_issue {cfg : Config} {c c' : Context} {i : Instr} (h : MoveCtx cfg c (issue i) c') :
    InstrCtx cfg c i c' := by
  generalize hm : issue i = m at h
  cases h with
  | reset => cases hm
  | reserved cmd op hd =>
    obtain rfl := HostMove.command.inj hm
    cases (decode_encode i).symm.trans hd
  | instr j _ hj =>
    obtain rfl := encode_injective (HostMove.command.inj hm)
    exact hj

/-- A move that raises `MI` is a valid `INIT` (R14). -/
theorem MoveCtx.raises {cfg : Config} {c c' : Context} {m : HostMove} (h : MoveCtx cfg c m c') (h0 : c.MI = false)
    (h1 : c'.MI = true) : ∃ frames, m = issue (.init frames) ∧ initCauses frames = [] := by
  cases h with
  | reset => simp at h1
  | reserved => simp [h0] at h1
  | instr i _ hi =>
    obtain ⟨frames, rfl, hvalid⟩ := hi.raises h0 h1
    exact ⟨frames, rfl, hvalid⟩

/-- A move that lowers `MI` is `CLEAR` without a frame or a reset pulse (R14). -/
theorem MoveCtx.lowers {cfg : Config} {c c' : Context} {m : HostMove} (h : MoveCtx cfg c m c') (h1 : c.MI = true)
    (h0 : c'.MI = false) : m = issue (.clear []) ∨ m = .reset := by
  cases h with
  | reset => exact .inr rfl
  | reserved => simp [h1] at h0
  | instr i _ hi => exact .inl (congrArg issue (hi.lowers h1 h0))

/-- A reset pulse and `CLEAR` without a frame leave the zero-filled context (R22). -/
theorem MoveCtx.zeroes {cfg : Config} {c c' : Context} {m : HostMove} (h : MoveCtx cfg c m c')
    (hm : m = .reset ∨ m = issue (.clear [])) : c' = Context.zero := by
  obtain rfl | rfl := hm
  case inl => cases h; rfl
  case inr =>
    cases h.of_issue with
    | invalid _ hcause => exact absurd ((clearCauses_eq_nil []).2 rfl) hcause
    | clear => rfl

/-- The status says what the flag says (R15). -/
theorem status_iff (c : Context) : (c.status = .active ↔ c.MI = true) ∧ (c.status = .uninitialized ↔ c.MI = false) := by
  cases h : c.MI <;> simp [Context.status, h]

/-- Settles O44: what an instruction does to `MI` for the commands; for the steps, a waiting one leaves it, and a move is the
first of the moves to come. -/
theorem onlyInitRaisesMIAndOnlyClearOrResetLowersIt : Obligations.OnlyInitRaisesMIAndOnlyClearOrResetLowersIt := by
  refine ⟨fun i s => ?instruction, fun s => ?step⟩
  case instruction =>
    obtain ⟨_, ctx, he, hctx⟩ := exec_next i s
    refine ⟨_, he, hctx.raises, hctx.lowers, ?_⟩
    rintro frames rfl hvalid
    exact hctx.init_MI hvalid
  case step =>
    obtain ⟨hs, h⟩ | ⟨m, rest, ctx, answer, hs, hctx, h⟩ := step_next s
    case inl =>
      refine ⟨s, h, fun h0 h1 => ?_, fun h1 h0 => ?_, fun _ hm => ?_, fun _ _ hm => ?_, status_iff s.ctx⟩
      · simp [h0] at h1
      · simp [h1] at h0
      · simp [hs] at hm
      · simp [hs] at hm
    case inr =>
      have first : ∀ {m' rest'}, s.input = m' :: rest' → m = m' := fun hm => (List.cons.inj (hs.symm.trans hm)).1
      refine ⟨_, h, fun h0 h1 => ?_, fun h1 h0 => ?_, fun rest' hm => ?_, fun frames rest' hm hvalid => ?_, status_iff ctx⟩
      · obtain ⟨frames, rfl, hvalid⟩ := hctx.raises h0 h1
        exact ⟨frames, rest, hs, hvalid⟩
      · obtain rfl | rfl := hctx.lowers h1 h0
        · exact ⟨rest, .inl hs⟩
        · exact ⟨rest, .inr hs⟩
      · exact congrArg Context.MI (hctx.zeroes (hm.imp first first))
      · obtain rfl := first hm
        exact hctx.of_issue.init_MI hvalid

end Sys2Proof.Machine
end

section
/-! PROOFS. Words bit by bit: rotation, and the byte lanes, by which words are told apart. -/

namespace Sys2Proof.Machine

/-! ## Rotation -/

/-- `rotl` is the library's rotation of a bit vector, for the counts below 32 (R6). -/
theorem rotl_eq_rotateLeft (x : Word) {n : Nat} (hn : n < 32) : rotl x n = x.rotateLeft n := by
  rw [BitVec.rotateLeft_def, Nat.mod_eq_of_lt hn, rotl]

/-- Bit `i` of a rotation is the bit `n` places below it, round the word. -/
theorem rotl_bit (x : Word) {n i : Nat} (hn : n < 32) (hi : i < 32) :
    (rotl x n).getLsbD i = x.getLsbD ((i + (32 - n)) % 32) := by
  rw [rotl_eq_rotateLeft x hn, BitVec.getLsbD_rotateLeft, Nat.mod_eq_of_lt hn]
  by_cases hlt : i < n
  · have hplace : (i + (32 - n)) % 32 = 32 - n + i := by omega
    simp [hlt, hplace]
  · have hplace : (i + (32 - n)) % 32 = i - n := by omega
    simp [hlt, hi, hplace]

/-- Two rotations that stay below a full turn are one. -/
theorem rotl_rotl (x : Word) {m n : Nat} (h : m + n < 32) : rotl (rotl x m) n = rotl x (m + n) := by
  refine BitVec.eq_of_getLsbD_eq fun i hi => ?_
  have hplace : ((i + (32 - n)) % 32 + (32 - m)) % 32 = (i + (32 - (m + n))) % 32 := by omega
  rw [rotl_bit _ (by omega) hi, rotl_bit _ (by omega) (Nat.mod_lt _ (by omega)), rotl_bit _ h hi, hplace]

/-- Settles O53: `n` places below bit `(k + n) mod 32` is bit `k`. -/
theorem rotationMovesEveryBit : Obligations.RotationMovesEveryBit := by
  intro x n k _ hn hk
  have hplace : ((k + n) % 32 + (32 - n)) % 32 = k := by omega
  rw [rotl_bit x (by omega) (Nat.mod_lt _ (by omega)), hplace]

/-! ## Byte lanes -/

/-- Under big-endian lanes byte `k` of a word is its bits from `24 - 8k` on (R31). -/
theorem byteOf_big (k : Fin 4) (w : Word) : byteOf .big k w = w.extractLsb' (24 - 8 * k.val) 8 :=
  BitVec.setWidth_ushiftRight_eq_extractLsb

/-- Settles O54: the two byte orders, the lane that is written, and the others. -/
theorem byteLanesOfAWord : Obligations.ByteLanesOfAWord := fun order k k' b w =>
  ⟨byteOf_little k w, byteOf_big k w, byteOf_xorLane_same order k b w, byteOf_xorLane_of_ne order k k' b w⟩

/-- Every bit of a word lies in a lane. -/
theorem exists_lane (order : ByteOrder) {i : Nat} (hi : i < 32) : ∃ k : Fin 4, ∃ j < 8, i = laneShift order k + j := by
  cases order with
  | little => exact ⟨⟨i / 8, by omega⟩, i % 8, by omega, by simp only [laneShift]; omega⟩
  | big => exact ⟨⟨3 - i / 8, by omega⟩, i % 8, by omega, by simp only [laneShift]; omega⟩

/-- Two words with the same bytes are equal. -/
theorem word_ext_bytes (order : ByteOrder) {w w' : Word} (h : ∀ k, byteOf order k w = byteOf order k w') : w = w' := by
  refine BitVec.eq_of_getLsbD_eq fun i hi => ?_
  obtain ⟨k, j, hj, rfl⟩ := exists_lane order hi
  rw [← byteOf_bit order k w j hj, ← byteOf_bit order k w' j hj, h k]

end Sys2Proof.Machine
end

section
/-! PROOFS. `SEED`, `ABSORB` and `DERIVE` as `INIT` uses them: the seed index in closed form, frames that fold alike, and the
contexts that lead to one warm-up. -/

namespace Sys2Proof.Machine

/-! ## The seed index -/

/-- The seed index without truncation: `2^21` is 8 modulo 24 (R61). -/
theorem seedIndex_unbounded (KL i : Nat) : seedIndex .unbounded KL i = 8 * ((KL * (i + 1)) % 3) := by
  rw [seedIndex_eq, truncLen, truncLen, Nat.mul_right_comm]
  omega

/-- A truncation that drops no bit of the product gives the index that no truncation gives (R60). -/
theorem seedIndex_of_lt {lenw : LenWidth} {KL i B : Nat} (htrunc : ∀ v, v < B → truncLen lenw v = v)
    (hlt : KL * 2 ^ 21 * (i + 1) < B) : seedIndex lenw KL i = seedIndex .unbounded KL i := by
  have hfactor : KL * 2 ^ 21 < B := Nat.lt_of_le_of_lt (Nat.le_mul_of_pos_right _ (Nat.succ_pos i)) hlt
  rw [seedIndex_eq, seedIndex_eq, htrunc _ hfactor, htrunc _ hlt]
  rfl

/-- Settles O9: the closed form, and for each width the largest product that the bounds admit. -/
theorem seedIndexClosedForm : Obligations.SeedIndexClosedForm := by
  refine fun KL i => ⟨seedIndex_unbounded KL i, fun hi hk => ?w32, fun hi hk => ?w64⟩
  case w32 =>
    refine seedIndex_of_lt (B := 2 ^ 32) (fun v hv => Nat.mod_eq_of_lt hv) ?_
    calc KL * 2 ^ 21 * (i + 1) ≤ 127 * 2 ^ 21 * 16 := by gcongr; omega
      _ < 2 ^ 32 := by norm_num
  case w64 =>
    refine seedIndex_of_lt (B := 2 ^ 64) (fun v hv => Nat.mod_eq_of_lt hv) ?_
    calc KL * 2 ^ 21 * (i + 1) ≤ (2 ^ 39 - 1) * 2 ^ 21 * 16 := by gcongr <;> omega
      _ < 2 ^ 64 := by norm_num

/-- The seeded words of two lengths that agree modulo 3 are the same, where nothing is truncated (R62). -/
theorem seedWords_of_mod_three {cfg : Config} (hw : cfg.LENW = .unbounded) {KL KL' : Nat} (h : KL % 3 = KL' % 3) :
    seedWords cfg KL = seedWords cfg KL' := by
  refine array_ext _ _ fun i => ?_
  have hmod : KL * (i.val + 1) % 3 = KL' * (i.val + 1) % 3 := Nat.ModEq.mul_right _ h
  rw [seedWords_get, seedWords_get, hw, seedIndex_unbounded, seedIndex_unbounded, hmod]

/-- Settles O11: `seedWords` does not take the context, and reads the length modulo 3. -/
theorem seededStateDependsOnKeyLengthOnly : Obligations.SeededStateDependsOnKeyLengthOnly :=
  fun _ _ _ _ _ => ⟨rfl, fun hw h => seedWords_of_mod_three hw h⟩

/-! ## What a frame folds onto a lane -/

/-- A frame whose byte numbers stay below 64 folds each byte onto the lane of its number, and nothing onto the others. -/
theorem laneFoldFrom_of_short (p j : Nat) (F : Frame) (h : j + F.length ≤ 64) :
    laneFoldFrom p j F = if j ≤ p then F.getD (p - j) 0#8 else 0#8 := by
  induction F generalizing j with
  | nil => simp [laneFoldFrom]
  | cons b F ih =>
    have hj : j % 64 = j := Nat.mod_eq_of_lt (by rw [List.length_cons] at h; omega)
    rw [laneFoldFrom, ih (j + 1) (by rw [List.length_cons] at h; omega), hj]
    obtain hlt | rfl | hgt := Nat.lt_trichotomy j p
    · have hnext : p - j = p - (j + 1) + 1 := by omega
      simp [hlt.ne, hlt.le, Nat.succ_le_of_lt hlt, hnext]
    · simp
    · simp [hgt.ne', hgt.not_ge, Nat.not_le_of_gt (Nat.lt_succ_of_lt hgt)]

/-- A frame of at most 64 bytes folds its byte `p` onto lane `p`. -/
theorem laneFold_of_short (p : Nat) (F : Frame) (h : F.length ≤ 64) : laneFold p F = F.getD p 0#8 := by
  rw [laneFold, laneFoldFrom_of_short p 0 F (by omega), if_pos (Nat.zero_le p), Nat.sub_zero]

/-- What two frames in a row fold onto a lane. -/
theorem laneFoldFrom_append (p j : Nat) (F G : Frame) :
    laneFoldFrom p j (F ++ G) = laneFoldFrom p j F ^^^ laneFoldFrom p (j + F.length) G := by
  induction F generalizing j with
  | nil => simp [laneFoldFrom]
  | cons b F ih =>
    have hlen : j + (b :: F).length = j + 1 + F.length := by rw [List.length_cons]; omega
    rw [List.cons_append, laneFoldFrom, laneFoldFrom, ih, BitVec.xor_assoc, hlen]

/-- The byte numbers count modulo 64. -/
theorem laneFoldFrom_add_64 (p j : Nat) (F : Frame) : laneFoldFrom p (j + 64) F = laneFoldFrom p j F := by
  induction F generalizing j with
  | nil => rfl
  | cons b F ih => rw [laneFoldFrom, laneFoldFrom, Nat.add_mod_right, Nat.add_right_comm, ih]

/-- A block of 64 bytes and the same block again fold to nothing. -/
theorem laneFold_twice (p : Nat) (F : Frame) (h : F.length = 64) : laneFold p (F ++ F) = 0#8 := by
  rw [laneFold, laneFoldFrom_append, h, laneFoldFrom_add_64, BitVec.xor_self]

/-- Zero bytes fold to nothing. -/
theorem laneFoldFrom_zeros (p j n : Nat) : laneFoldFrom p j (List.replicate n 0#8) = 0#8 := by
  induction n generalizing j with
  | zero => rfl
  | succ n ih => rw [List.replicate_succ, laneFoldFrom, ih, ite_self, BitVec.xor_self]

/-! ## ABSORB -/

/-- Two arrays are equal when their 64 lanes are. -/
theorem array_ext_bytes (order : ByteOrder) {S S' : StateArray}
    (h : ∀ (w : Fin 16) (k : Fin 4), byteOf order k S[w] = byteOf order k S'[w]) : S = S' :=
  array_ext S S' fun w => word_ext_bytes order (h w)

/-- Frames that fold alike onto every lane are absorbed alike (R63). -/
theorem absorbFrom_of_laneFold (order : ByteOrder) {F F' : Frame} (S : StateArray)
    (h : ∀ p, p < 64 → laneFold p F = laneFold p F') : absorbFrom order 0 F S = absorbFrom order 0 F' S := by
  refine array_ext_bytes order fun w k => ?_
  rw [byteOf_absorbFrom, byteOf_absorbFrom]
  exact congrArg _ (h (4 * w.val + k.val) (by omega))

/-- A word all of whose lanes take nothing stays. -/
theorem absorb_get_of_laneFold (cfg : Config) (F : Frame) (c : Context) (w : Fin 16)
    (h : ∀ k : Fin 4, laneFold (4 * w.val + k.val) F = 0#8) : (absorb cfg F c).S[w] = c.S[w] := by
  refine word_ext_bytes cfg.BYTE_ORDER fun k => ?_
  rw [absorb_S, byteOf_absorbFrom]
  exact (congrArg _ (h k)).trans (BitVec.xor_zero)

/-- Settles O13: both absorptions are `byteOf_absorbFrom` from byte number 0; lanes from 12 on take no byte of the nonce. -/
theorem nonceRestartsAtWordZero : Obligations.NonceRestartsAtWordZero := by
  intro cfg KEY NONCE c hn
  have hfold : ∀ p, laneFold p NONCE = NONCE.getD p 0#8 := fun p => laneFold_of_short p NONCE (by omega)
  refine ⟨fun w k => ?lanes, fun w hw => ?rest, fun j _ => hfold j⟩
  case lanes =>
    rw [absorb_S, absorb_S, byteOf_absorbFrom, byteOf_absorbFrom]
    rfl
  case rest =>
    refine absorb_get_of_laneFold cfg NONCE _ w fun k => ?_
    rw [hfold, List.getD_eq_default _ _ (by omega)]

/-! ## INIT -/

/-- The context before `DERIVE` in a valid `INIT`: `S` seeded, then both frames absorbed (R111). -/
def absorbed (cfg : Config) (KEY NONCE : Frame) (c : Context) : Context :=
  absorb cfg NONCE (absorb cfg KEY (seed cfg KEY.length c))

/-- The absorbed context takes nothing of the one before but its `M` and its `MI`. -/
theorem absorbed_eq (cfg : Config) (KEY NONCE : Frame) (c : Context) :
    absorbed cfg KEY NONCE c = { c with
      S := absorbFrom cfg.BYTE_ORDER 0 NONCE (absorbFrom cfg.BYTE_ORDER 0 KEY (seedWords cfg KEY.length)) } := by
  rw [absorbed, absorb, absorb, seed]

theorem absorbed_M (cfg : Config) (KEY NONCE : Frame) (c : Context) : (absorbed cfg KEY NONCE c).M = c.M := by
  rw [absorbed_eq]

theorem absorbed_MI (cfg : Config) (KEY NONCE : Frame) (c : Context) : (absorbed cfg KEY NONCE c).MI = c.MI := by
  rw [absorbed_eq]

/-- `INIT` is `DERIVE` and a pass on the absorbed context (R111). -/
theorem initContext_eq (cfg : Config) (KEY NONCE : Frame) (c : Context) :
    initContext cfg KEY NONCE c = diffuse cfg (derive cfg (absorbed cfg KEY NONCE c)) := rfl

/-- `INIT` reads of a key its length modulo 3 and its fold, where the seed index is not truncated (R65). -/
theorem initContext_of_laneFold {cfg : Config} (hw : cfg.LENW = .unbounded) {KEY KEY' : Frame} (NONCE : Frame) (c : Context)
    (hlen : KEY.length % 3 = KEY'.length % 3) (hfold : ∀ p, p < 64 → laneFold p KEY = laneFold p KEY') :
    initContext cfg KEY NONCE c = initContext cfg KEY' NONCE c := by
  rw [initContext_eq, initContext_eq, absorbed_eq, absorbed_eq, seedWords_of_mod_three hw hlen,
    absorbFrom_of_laneFold _ _ hfold]

/-- Settles O14: two keys that fold alike lead to one context; equal halves fold to nothing, as zero bytes do. -/
theorem keysThatFoldAlikeAreEquivalent : Obligations.KeysThatFoldAlikeAreEquivalent := by
  intro s KEY KEY' NONCE hw hk hk' hn
  have alike : ∀ K K' : Frame, K ≠ [] → K' ≠ [] → K.length % 3 = K'.length % 3 →
      (∀ p, p < 64 → laneFold p K = laneFold p K') → exec (.init [K, NONCE]) s = exec (.init [K', NONCE]) s := by
    intro K K' h h' hlen hfold
    rw [exec_init_valid s h hn, exec_init_valid s h' hn, initContext_of_laneFold hw NONCE s.ctx hlen hfold]
  refine ⟨alike KEY KEY' hk hk', fun h64 => ?halves⟩
  case halves =>
    refine alike _ _ (by simp [hk]) (by simp) (by simp [h64]) fun p _ => ?_
    exact (laneFold_twice p KEY h64).trans (laneFoldFrom_zeros p 0 128).symm

/-- Settles O8: before the warm-up `DERIVE` exclusive-ors its two words onto words of `M` that are zero. -/
theorem initOnContractDerivesFromStateAndTable : Obligations.InitOnContractDerivesFromStateAndTable := by
  rintro s KEY NONCE hk hn ⟨-, hM, hMI⟩
  refine ⟨_, derive s.cfg (absorbed s.cfg KEY NONCE s.ctx), exec_init_valid s hk hn, rfl, derive_S _ _, fun r x hx => ?live,
    ?status⟩
  case live =>
    have hMI' : (absorbed s.cfg KEY NONCE s.ctx).MI = false := (absorbed_MI _ _ _ _).trans hMI
    have hop : 7 * r.val + 11 * x.val = deriveOp r x := by rw [deriveOp, Nat.mul_comm, Nat.mul_comm 11]
    simp only [derive_S, derive_M_of_not_MI _ _ hMI', getM_deriveCells, if_neg hx,
      absorbed_M, hM, BitVec.zero_xor, hop]
    rfl
  case status => exact (status_iff _).1.2 (initContext_MI s.cfg KEY NONCE s.ctx)

/-- Settles O7: `SEED` overwrites `S` (R60), and with `MI = 1` the deriver is skipped. -/
theorem initIgnoresOldStateArrayAndKeepsOldMatrix : Obligations.InitIgnoresOldStateArrayAndKeepsOldMatrix := by
  refine fun s S' KEY NONCE hk hn => ⟨?old, fun hMI => ?skipped⟩
  case old =>
    refine ⟨_, _, exec_init_valid s hk hn, exec_init_valid _ hk hn, ?_⟩
    simp only [respondOk_ctx, initContext_eq, absorbed_eq]
  case skipped =>
    refine ⟨_, exec_init_valid s hk hn, ?_⟩
    simp only [respondOk_ctx, initContext_eq, absorbed_eq, derive_of_MI, hMI, absorb_S, seed_S]

end Sys2Proof.Machine
end

section
/-! PROOFS. The diffusion engine in closed form: the quarter references as numbers, `MIX` half by half on distinct and on
coinciding locations, and what a pass leaves in `M`. -/

namespace Sys2Proof.Machine

/-! ## The quarter references -/

/-- The diagonal reference as a number: `skip(q)` is `5q` (R75). -/
theorem diaidx_val (i : Nat) (q : Fin 4) : (diaidx i q).val = (i + 5 * q.val) % 16 := by
  have hskip : Lit.diagSkip q = 5 * q.val := by fin_cases q <;> rfl
  rw [diaidx, sIdx_val, hskip]

/-- Settles O16: the references as numbers, of which `i` and `i + 16` give the same. -/
theorem quarterReferencesAreTheFormulas : Obligations.QuarterReferencesAreTheFormulas := by
  refine fun i q => ⟨colidx_val i q, rowidx_val i q, diaidx_val i q, Fin.ext ?col, Fin.ext ?row, Fin.ext ?dia⟩
  case col => rw [colidx_val, colidx_val]; omega
  case row => rw [rowidx_val, rowidx_val]; omega
  case dia => rw [diaidx_val, diaidx_val]; omega

/-- Settles O17: `4(i mod 4) + q = 4q' + (i mod 4)` with both remainders below 4 has the one solution. -/
theorem columnAndRowReferenceCoincide : Obligations.ColumnAndRowReferenceCoincide := by
  refine fun i q q' => ⟨?iff, fun hq => ?location⟩
  case iff => rw [Fin.ext_iff, colidx_val, rowidx_val]; omega
  case location => rw [colidx_val]; omega

/-- Settles O22: each pair is an equation between the references as numbers, for a remainder of `i` modulo 16. -/
theorem whichLocationsOfACallCoincide : Obligations.WhichLocationsOfACallCoincide := by
  intro i
  simp only [Ne, Fin.ext_iff, colidx_val, rowidx_val, diaidx_val]
  omega

/-! ## MIX, half by half

`mix1`, `mix2` and `mix3` are one function of their locations, parameters and rotation counts; `mix4` ends differently. -/

/-- Four statements of `MIX` on the locations `x` and `y`: an addition, an exclusive-or and two rotations (R77). -/
def addXorRotate (x y : Fin 16) (q p : Word) (n m : Nat) (S : StateArray) : StateArray :=
  mixRot x x p m (mixRot y y p n (mixXor y x (mixAdd x q y S)))

section
variable {x y z : Fin 16} {q p p1 p2 : Word} {n m : Nat} {S : StateArray}

/-- The location that is added to, where the two are distinct. -/
theorem addXorRotate_fst (h : x ≠ y) : (addXorRotate x y q p n m S)[x] = rotl (S[x] + q + S[y] + p) m := by
  simp only [addXorRotate, mixAdd_get, mixXor_get, mixRot_get, h, if_true, if_false]

/-- The location that is exclusive-ored onto, where the two are distinct. -/
theorem addXorRotate_snd (h : x ≠ y) :
    (addXorRotate x y q p n m S)[y] = rotl ((S[y] ^^^ (S[x] + q + S[y])) + p) n := by
  simp only [addXorRotate, mixAdd_get, mixXor_get, mixRot_get, h.symm, if_true, if_false]

/-- Every other location stays. -/
theorem addXorRotate_of_ne (hx : z ≠ x) (hy : z ≠ y) : (addXorRotate x y q p n m S)[z] = S[z] := by
  simp only [addXorRotate, mixAdd_get, mixXor_get, mixRot_get, if_neg hx, if_neg hy]

/-- The last four statements on distinct locations: `c` (R78). -/
theorem mix4_fst (h : x ≠ y) : (mix4 x y p1 p2 S)[x] = rotl (S[x] + p2 + S[y] + p1) 30 := by
  simp only [mix4, mixAdd_get, mixXor_get, mixRot_get, h, if_true, if_false]

/-- The last four statements on distinct locations: `d`, which takes the rotation of `c` (R78). -/
theorem mix4_snd (h : x ≠ y) : (mix4 x y p1 p2 S)[y] = rotl (S[x] + p2 + S[y] + p1) 7 := by
  simp only [mix4, mixAdd_get, mixXor_get, mixRot_get, h, h.symm, if_true, if_false]

/-- The last four statements where the two locations are one. -/
theorem mix4_self : (mix4 x x p1 p2 S)[x] = rotl (rotl p1 7 + p1) 30 := by
  simp only [mix4, mixAdd_get, mixXor_get, mixRot_get, if_true, BitVec.xor_self, BitVec.zero_add]

/-- Every other location stays. -/
theorem mix4_of_ne (hx : z ≠ x) (hy : z ≠ y) : (mix4 x y p1 p2 S)[z] = S[z] := by
  simp only [mix4, mixAdd_get, mixXor_get, mixRot_get, if_neg hx, if_neg hy]

end

/-- `MIX` by its four halves. -/
theorem mix_eq (ia ib ic id : Fin 16) (p1 p2 : Word) (S : StateArray) :
    mix ia ib ic id p1 p2 S = mix4 ic id p1 p2 (addXorRotate ia ib p1 p2 14 25
      (addXorRotate ic id p1 p2 12 15 (addXorRotate ia ib p2 p1 5 11 S))) := rfl

/-- Settles O20: none of the four halves writes another location. -/
theorem mixWritesOnlyItsLocations : Obligations.MixWritesOnlyItsLocations := by
  intro ia ib ic id x p1 p2 S ha hb hc hd
  rw [mix_eq, mix4_of_ne hc hd, addXorRotate_of_ne ha hb, addXorRotate_of_ne hc hd, addXorRotate_of_ne ha hb]

/-- Settles O19: a half reads the two words that the half before it on the same locations left, the halves between writing
two others. -/
theorem mixOnDistinctLocations : Obligations.MixOnDistinctLocations := by
  intro ia ib ic id p1 p2 S hab hac had hbc hbd hcd
  refine ⟨?a, ?b, ?c, ?d, fun x => mixWritesOnlyItsLocations ia ib ic id x p1 p2 S⟩
  case a =>
    rw [mix_eq, mix4_of_ne hac had, addXorRotate_fst hab, addXorRotate_of_ne hac had, addXorRotate_of_ne hbc hbd,
      addXorRotate_fst hab, addXorRotate_snd hab]
  case b =>
    rw [mix_eq, mix4_of_ne hbc hbd, addXorRotate_snd hab, addXorRotate_of_ne hac had, addXorRotate_of_ne hbc hbd,
      addXorRotate_fst hab, addXorRotate_snd hab]
  case c =>
    rw [mix_eq, mix4_fst hcd, addXorRotate_of_ne hac.symm hbc.symm, addXorRotate_of_ne had.symm hbd.symm,
      addXorRotate_fst hcd, addXorRotate_snd hcd, addXorRotate_of_ne hac.symm hbc.symm,
      addXorRotate_of_ne had.symm hbd.symm]
  case d =>
    rw [mix_eq, mix4_snd hcd, addXorRotate_of_ne hac.symm hbc.symm, addXorRotate_of_ne had.symm hbd.symm,
      addXorRotate_fst hcd, addXorRotate_snd hcd, addXorRotate_of_ne hac.symm hbc.symm,
      addXorRotate_of_ne had.symm hbd.symm]

/-- Settles O21: the last half gives both words from one sum, rotated by 30, which is 7 and 23 more, and by 7. -/
theorem lastLineRotatesC : Obligations.LastLineRotatesC := by
  intro ia ib ic id p1 p2 S hcd
  refine ⟨?_, _, rfl, ?_⟩
  · rw [mix, mix4_fst hcd, mix4_snd hcd, rotl_rotl _ (by omega)]
  · rw [mix, mix4_snd hcd]

/-- Settles O23: the halves on two distinct locations, or on one, with the words and the parameters put in. -/
theorem mixOnCoincidingLocations : Obligations.MixOnCoincidingLocations := by
  intro x y z S hxy hxz hyz
  refine ⟨fun hx hy hz => ?b_is_c, fun hx hy hz => ?a_is_c, fun hx hy _ => ?c_is_d⟩
  case b_is_c =>
    simp only [mix_eq, mix4_fst hyz, mix4_snd hyz, mix4_of_ne hxy hxz, addXorRotate_fst hxy, addXorRotate_snd hxy,
      addXorRotate_fst hyz, addXorRotate_snd hyz, addXorRotate_of_ne hxy hxz, addXorRotate_of_ne hxz.symm hyz.symm, hx, hy, hz]
    decide
  case a_is_c =>
    simp only [mix_eq, mix4_fst hxz, mix4_snd hxz, mix4_of_ne hxy.symm hyz, addXorRotate_fst hxy, addXorRotate_snd hxy,
      addXorRotate_fst hxz, addXorRotate_snd hxz, addXorRotate_of_ne hxy.symm hyz, addXorRotate_of_ne hxz.symm hyz.symm, hx, hy,
      hz]
    decide
  case c_is_d =>
    simp only [mix_eq, mix4_self, mix4_of_ne hxz hxz, mix4_of_ne hyz hyz, addXorRotate_fst hxy, addXorRotate_snd hxy,
      addXorRotate_of_ne hxz hxz, addXorRotate_of_ne hyz hyz, hx, hy]
    decide

/-! ## A pass -/

/-- A pass of a multiplier of at least 1 ends with the copy-back of iteration `4 * MULT - 1` (R83). -/
theorem diffuse_last (cfg : Config) (c : Context) (h : 1 ≤ cfg.MULT) :
    ∃ M, (diffuse cfg c).M = copyback (4 * cfg.MULT - 1) (diffuse cfg c).S M := by
  obtain ⟨n, hn⟩ : ∃ n, 4 * cfg.MULT = n + 1 := ⟨4 * cfg.MULT - 1, by omega⟩
  have hlast : diffuse cfg c = outer n (outerFrom 0 n c) := by
    rw [diffuse, hn, outerFrom_succ, Nat.zero_add]
  exact ⟨(outerFrom 0 n c).M, by rw [hn, Nat.add_sub_cancel, hlast]; rfl⟩

/-- Settles O27: the references of the last iteration, whose index is 3 modulo 4. -/
theorem passLeavesWordsOfStateInMatrix : Obligations.PassLeavesWordsOfStateInMatrix := by
  intro cfg c q h
  obtain ⟨M, hM⟩ := diffuse_last cfg c h
  refine ⟨?col, ?row, ?dia, diffuse_pad c cfg q, diffuse_MI c cfg⟩
  case col =>
    have hloc : colidx (4 * cfg.MULT - 1) q = Fin.ofNat 16 (12 + q.val) :=
      Fin.ext (by rw [colidx_val, Fin.val_ofNat]; omega)
    simp only [hM, copyback_col, hloc]
  case row =>
    have hloc : rowidx (4 * cfg.MULT - 1) q = Fin.ofNat 16 (4 * q.val + 3) :=
      Fin.ext (by rw [rowidx_val, Fin.val_ofNat]; omega)
    simp only [hM, copyback_row, hloc]
  case dia =>
    have hloc : diaidx (4 * cfg.MULT - 1) q = Fin.ofNat 16 (4 * cfg.MULT - 1 + 5 * q.val) :=
      Fin.ext (by rw [diaidx_val, Fin.val_ofNat])
    simp only [hM, copyback_dia, hloc]

end Sys2Proof.Machine
end

section
/-! PROOFS. The output of a `PROC` as its data exclusive-or a keystream that no data enters, and what follows from that: what
the keystream depends on, where it is zero, and how cutting a message moves it. -/

namespace Sys2Proof.Machine

/-! ## The output and the keystream -/

/-- The output of a `PROC` is each data byte exclusive-or the keystream byte of its place (R97 to R99). -/
theorem procLoop_OUT (cfg : Config) (DATA : Frame) (c : Context) :
    (procLoop cfg DATA c).OUT = DATA.mapIdx fun j d => d ^^^ c.keystreamByte cfg j := by
  obtain ⟨-, hlen, hbyte⟩ := procLoop_spec cfg DATA c
  refine List.ext_getElem (by rw [hlen, List.length_mapIdx]) fun j hj hj' => Option.some.inj ?_
  have hd : j < DATA.length := hlen ▸ hj
  rw [← List.getElem?_eq_getElem hj, hbyte j hd, List.getElem_mapIdx, List.getD_eq_getElem _ _ hd]

/-- Output exclusive-or data is the keystream byte, within the data. -/
theorem procLoop_OUT_xor (cfg : Config) (DATA : Frame) (c : Context) {j : Nat} (hj : j < DATA.length) :
    (procLoop cfg DATA c).OUT.getD j 0#8 ^^^ DATA.getD j 0#8 = c.keystreamByte cfg j := by
  rw [List.getD, (procLoop_spec cfg DATA c).2.2 j hj, Option.getD_some, BitVec.xor_comm (DATA.getD j 0#8), BitVec.xor_assoc,
    BitVec.xor_self, BitVec.xor_zero]

/-- Settles O35: both differences are the keystream byte, which knows of no command. -/
theorem firstBlockAgreesInEveryCutting : Obligations.FirstBlockAgreesInEveryCutting := by
  intro s DATA DATA' hd hd'
  refine ⟨_, _, _, _, exec_proc_valid s hd, exec_proc_valid s hd', rfl, rfl, fun j _ hj hj' => ?_⟩
  rw [procLoop_OUT_xor _ _ _ hj, procLoop_OUT_xor _ _ _ hj']

/-- Settles O32: the number of blocks of `64n` and of `64n + r` bytes; an invalid `PROC` takes the exception. -/
theorem passesPerProc : Obligations.PassesPerProc := by
  intro s DATA n r
  have blocks : ∀ k, DATA ≠ [] → blockCount DATA.length = k →
      ∃ t, exec (.proc [DATA]) s = .next t ∧ t.ctx = s.ctx.afterBlocks s.cfg k := by
    rintro k hd rfl
    exact ⟨_, exec_proc_valid s hd, (procLoop_spec s.cfg DATA s.ctx).1⟩
  refine ⟨fun hn hlen => ?whole, fun hr hr' hlen => ?short, fun frames hcause => ?invalid⟩
  case whole => exact blocks n (List.ne_nil_of_length_pos (by omega)) (by rw [blockCount]; omega)
  case short => exact blocks (n + 1) (List.ne_nil_of_length_pos (by omega)) (by rw [blockCount]; omega)
  case invalid => exact ⟨_, exec_of_cause (.proc frames) s hcause, rfl⟩

/-! ## What the keystream does not depend on -/

/-- Blocks read no constant of `K`. -/
theorem afterBlocks_withK (cfg : Config) (K : Vector Word 24) (c : Context) (n : Nat) :
    c.afterBlocks { cfg with K := K } n = c.afterBlocks cfg n := by
  induction n with
  | zero => rfl
  | succ n ih =>
    rw [afterBlocks_succ, afterBlocks_succ, ih]
    exact diffuse_of_MULT _ { cfg with K := K } cfg rfl

/-- The keystream reads no constant of `K`. -/
theorem keystreamByte_withK (cfg : Config) (K : Vector Word 24) (c : Context) (j : Nat) :
    c.keystreamByte { cfg with K := K } j = c.keystreamByte cfg j := by
  rw [Context.keystreamByte, afterBlocks_withK]
  rfl

/-- The keystream does not read the flag. -/
theorem keystreamByte_withMI (cfg : Config) (c : Context) (b : Bool) (j : Nat) :
    Context.keystreamByte cfg { c with MI := b } j = c.keystreamByte cfg j := by
  rw [Context.keystreamByte, afterBlocks_withMI, Context.keystreamByte]

/-- A `PROC` reads no constant of `K`. -/
theorem procLoop_withK (cfg : Config) (K : Vector Word 24) (DATA : Frame) (c : Context) :
    (procLoop { cfg with K := K } DATA c).ctx = (procLoop cfg DATA c).ctx ∧
      (procLoop { cfg with K := K } DATA c).OUT = (procLoop cfg DATA c).OUT := by
  constructor
  · rw [(procLoop_spec _ DATA c).1, (procLoop_spec _ DATA c).1, afterBlocks_withK]
  · simp only [procLoop_OUT, keystreamByte_withK]

/-- A `PROC` neither reads nor writes the flag. -/
theorem procLoop_withMI (cfg : Config) (DATA : Frame) (c : Context) (b : Bool) :
    (procLoop cfg DATA { c with MI := b }).ctx = { (procLoop cfg DATA c).ctx with MI := b } ∧
      (procLoop cfg DATA { c with MI := b }).OUT = (procLoop cfg DATA c).OUT := by
  constructor
  · rw [(procLoop_spec cfg DATA _).1, (procLoop_spec cfg DATA _).1, afterBlocks_withMI]
  · simp only [procLoop_OUT, keystreamByte_withMI]

/-- Settles O33: the two engines' loops, against the first one's. -/
theorem procReadsNoConstantAndKeepsMI : Obligations.ProcReadsNoConstantAndKeepsMI := by
  intro s K MI' DATA hd
  obtain ⟨hKctx, hKout⟩ := procLoop_withK s.cfg K DATA s.ctx
  obtain ⟨hMctx, hMout⟩ := procLoop_withMI s.cfg DATA s.ctx MI'
  have hkeep : (procLoop s.cfg DATA s.ctx).ctx.MI = s.ctx.MI := by rw [(procLoop_spec s.cfg DATA s.ctx).1, afterBlocks_MI]
  refine ⟨_, _, _, exec_proc_valid s hd, exec_proc_valid _ hd, exec_proc_valid _ hd, hKctx, ?_, ?_, ?_, ?_, hkeep, ?_⟩
  · simp only [respondOk_responses, hKout]
  · simp only [respondOk_ctx, hMctx]
  · simp only [respondOk_ctx, hMctx]
  · simp only [respondOk_responses, hMout]
  · simp only [respondOk_ctx, hMctx]

/-! ## Determinism -/

/-- The keystream a `PROC` used is a function of the length of its data. -/
theorem keystreamUsed_procLoop (cfg : Config) (d : Frame) (c : Context) :
    keystreamUsed d (procLoop cfg d c).OUT = (List.range d.length).map (c.keystreamByte cfg) := by
  refine List.ext_getElem (by simp [keystreamUsed, procLoop_OUT]) fun j hj hj' => ?_
  simp [keystreamUsed, procLoop_OUT]

/-- Frames of the same lengths, processed in the same order from one context, use the same keystream and leave the same context
(R102). -/
theorem pieces_of_lengths (cfg : Config) (c : Context) {pieces pieces' : List Frame}
    (h : pieces.map List.length = pieces'.map List.length) :
    List.zipWith keystreamUsed pieces (outputs cfg c pieces) = List.zipWith keystreamUsed pieces' (outputs cfg c pieces') ∧
      ctxAfter cfg c pieces = ctxAfter cfg c pieces' := by
  induction pieces generalizing pieces' c with
  | nil =>
    obtain rfl : pieces' = [] := List.map_eq_nil_iff.1 h.symm
    exact ⟨rfl, rfl⟩
  | cons d ds ih =>
    cases pieces' with
    | nil => cases h
    | cons d' ds' =>
      obtain ⟨hd, hds⟩ := List.cons.inj h
      obtain ⟨hks, hctx⟩ := ih (procLoop cfg d c).ctx hds
      have hnext : (procLoop cfg d c).ctx = (procLoop cfg d' c).ctx := procLoop_ctx_of_length cfg c hd
      constructor
      · rw [outputs, outputs, List.zipWith_cons_cons, List.zipWith_cons_cons, keystreamUsed_procLoop, keystreamUsed_procLoop,
          hd, hks, hnext]
      · rw [ctxAfter, List.foldl_cons, ← ctxAfter, hctx, hnext, ctxAfter, ctxAfter, List.foldl_cons]

/-- Settles O37: `run_pieces` on both engines, and frames of the same lengths. -/
theorem keystreamDependsOnLengthsAlone : Obligations.KeystreamDependsOnLengthsAlone := by
  intro pieces pieces' s s' rest rest' hcfg hctx hlen hs hs'
  obtain ⟨hks, hafter⟩ := pieces_of_lengths s.cfg s.ctx hlen
  refine ⟨_, _, outputs s.cfg s.ctx pieces, outputs s.cfg s.ctx pieces', run_pieces s pieces rest hs,
    run_pieces s' pieces' rest' hs', rfl, ?_, outputs_lengths _ _ _, outputs_lengths _ _ _, hks, ?_, rfl, rfl⟩
  · rw [hcfg, hctx]
  · rw [← hcfg, ← hctx, hafter]

/-! ## The padded view -/

/-- With the padded view and zero pad slots, the keystream is zero at positions 12 to 15 of every 16 (R101). -/
theorem keystreamByte_pad {cfg : Config} {c : Context} (hview : cfg.KSVIEW = .padded) (hpad : padZero c.M) {j : Nat}
    (hj : 12 ≤ j % 16) : c.keystreamByte cfg j = 0#8 := by
  obtain ⟨r, k, hplace⟩ : ∃ r k : Fin 4, j % 64 = 16 * r.val + 4 * (3 : Fin 4).val + k.val :=
    ⟨⟨j % 64 / 16, by omega⟩, ⟨j % 16 - 12, by omega⟩, by simp only; omega⟩
  have hzero : byteOf cfg.BYTE_ORDER k 0#32 = 0#8 := by simp [byteOf]
  rw [Context.keystreamByte, ksView, hview, List.getD, hplace, paddedView_get, Option.getD_some, afterBlocks_pad, hpad, hzero]

/-- Settles O34: a data byte exclusive-or a zero keystream byte is the data byte. -/
theorem padPositionsPassDataThrough : Obligations.PadPositionsPassDataThrough := by
  rintro s DATA ⟨hpad, -⟩ hview hd
  refine ⟨_, _, exec_proc_valid s hd, rfl, fun j hj hj12 => ?_⟩
  rw [(procLoop_spec s.cfg DATA s.ctx).2.2 j hj, keystreamByte_pad hview hpad hj12, BitVec.xor_zero,
    List.getD_eq_getElem _ _ hj, List.getElem?_eq_getElem hj]

/-! ## Cutting -/

/-- If one more byte after a block gives the same output in the block's command as in a command of its own, the keystream bytes
after counter steps by 2 and by 1 agree (R99, R100). -/
theorem keystreamByte_of_cut (cfg : Config) (c : Context) {D : Frame} (d : Byte) (hlen : D.length = 64)
    (h : (procLoop cfg (D ++ [d]) c).OUT = (procLoop cfg D c).OUT ++ (procLoop cfg [d] (procLoop cfg D c).ctx).OUT) :
    c.keystreamByte cfg 64 = (c.afterBlocks cfg 1).keystreamByte cfg 0 := by
  have hctx : (procLoop cfg D c).ctx = c.afterBlocks cfg 1 := by rw [(procLoop_spec cfg D c).1, hlen]; rfl
  rw [hctx, procLoop_OUT, procLoop_OUT, procLoop_OUT, List.mapIdx_append, List.append_right_inj, List.mapIdx_singleton,
    List.mapIdx_singleton, List.singleton_inj, BitVec.xor_right_inj, Nat.zero_add, hlen] at h
  exact h

/-- On the zero-filled context those two keystream bytes differ. -/
theorem keystreamByte_after_block_ne :
    Context.zero.keystreamByte Config.engine 64 ≠
      (Context.zero.afterBlocks Config.engine 1).keystreamByte Config.engine 0 := by
  set_option maxRecDepth 100000 in decide

/-- Settles O36: on the engine after reset, a block of zero bytes and one more. -/
theorem cuttingCanChangeTheOutput : Obligations.CuttingCanChangeTheOutput :=
  ⟨State.reset, List.replicate 64 0#8, [0#8], _, _, _, _, _, _, rfl, rfl, List.cons_ne_nil _ _,
    exec_proc_valid _ (by simp), rfl, exec_proc_valid _ (by simp), rfl, exec_proc_valid _ (by simp), rfl,
    fun h => keystreamByte_after_block_ne (keystreamByte_of_cut Config.engine Context.zero 0#8 rfl h)⟩

end Sys2Proof.Machine
end
